-- ==== Sys2Proof/Word.lean ====
section
/-! DEFINITION. The widths of the block's values, all unsigned (00_scope R11), and the two byte orders (00_scope R14). -/

namespace Sys2Proof

/-- One payload byte (10_state R22). -/
abbrev Byte := BitVec 8

/-- One 32-bit register of the host window, and the command word (20_memory R51, 30_encoding R80). -/
abbrev Word := BitVec 32

/-- The order in which bytes are assembled into a value (00_scope R14): `le`, the first byte least significant;
`be`, the first byte most significant. -/
inductive ByteOrder where
  | le
  | be
deriving DecidableEq, Repr

end Sys2Proof
end

