-- ==== Sys2Proof/Syntax.lean ====
section
/-! DEFINITION. The commands of the block: one constructor per row of spec/opcode_table.json (30_encoding R82). -/

namespace Sys2Proof

/-- A command. Format R commands have no operands; EXTRACT's are the natural numbers OFF, NB, SH and W and the byte order BE
(30_encoding R81). A command word outside R82 is no command: the decoder rejects it by name, and the machine then performs
43_control R182. -/
inductive Instr where
  /-- NOP (43_control R180). -/
  | nop
  /-- ENC.HB, encode HeartbeatMessage (40_encoder R111). -/
  | encHb
  /-- ENC.CE, encode CommErrorMessage (40_encoder R112). -/
  | encCe
  /-- DEC.HB, decode FIN as HeartbeatMessage (41_decoder R132). -/
  | decHb
  /-- DEC.CE, decode FIN as CommErrorMessage (41_decoder R133). -/
  | decCe
  /-- DEC, classify FIN and decode it (41_decoder R134). -/
  | dec
  /-- EXTRACT off, nb, order, sh, w (42_frame_parser R160). -/
  | extract (off nb : Nat) (order : ByteOrder) (sh w : Nat)
  /-- LOOP, copy FOUT into FIN (43_control R181). -/
  | loop
deriving DecidableEq, Repr

end Sys2Proof
end

