-- ==== Sys2Proof/WellFormed.lean ====
section
/-! DEFINITION. The operand ranges a command word can hold: those the assembler accepts (30_encoding R90). -/

namespace Sys2Proof

/-- EXTRACT's operands lie in the ranges of format X: off 0 to 7, nb 1 to 4, sh 0 to 31, w 1 to 32 (30_encoding R80, R90).
A descriptor in these ranges may still break 42_frame_parser R161; it is then an EXTRACT that reports BAD_DESCRIPTOR. -/
def Instr.wellFormed : Instr → Bool
  | .nop => true
  | .encHb => true
  | .encCe => true
  | .decHb => true
  | .decCe => true
  | .dec => true
  | .extract off nb _ sh w =>
      decide (off ≤ 7) && (decide (1 ≤ nb) && decide (nb ≤ 4)) && decide (sh ≤ 31) && (decide (1 ≤ w) && decide (w ≤ 32))
  | .loop => true

end Sys2Proof
end

