-- ==== Sys2Proof/Decode.lean ====
section
/-! DEFINITION. The command word (30_encoding R80 to R85): the decoder, total on 32-bit words and rejecting by name, and after it
the encoder, written from the same tables. -/

namespace Sys2Proof

/-- Why a word is no command (30_encoding R83). All three lead to the one behaviour of 43_control R182. -/
inductive Reject where
  /-- OP is 0x8 to 0xF. -/
  | reservedOpcode
  /-- OP is 0x0 to 0x5 or 0x7 and bits 31:4 are not all 0. -/
  | reservedBitsR
  /-- OP is 0x6 and bits 31:20 are not all 0. -/
  | reservedBitsX
deriving DecidableEq, Repr

/-- The field `w[hi:lo]` as a natural number (00_scope R11). -/
def bitField (w : Word) (hi lo : Nat) : Nat := (w.extractLsb' lo (hi + 1 - lo)).toNat

/-- Format R (30_encoding R80): bits 31:4 must be 0. -/
def formatR (w : Word) (i : Instr) : Except Reject Instr :=
  if bitField w 31 4 = 0 then .ok i else .error .reservedBitsR

/-- Bit 9 of format X: 0 is LE, 1 is BE (30_encoding R80). -/
def orderOfBit (b : Nat) : ByteOrder := if b = 0 then .le else .be

/-- Format X (30_encoding R80, R81): bits 31:20 must be 0; NB and W are one more than their fields. -/
def formatX (w : Word) : Except Reject Instr :=
  if bitField w 31 20 = 0 then
    .ok (.extract (bitField w 6 4) (bitField w 8 7 + 1) (orderOfBit (bitField w 9 9)) (bitField w 14 10) (bitField w 19 15 + 1))
  else .error .reservedBitsX

/-- The decoder (30_encoding R82): by OP = w[3:0] alone, then the reserved bits of the format. -/
def decode (w : Word) : Except Reject Instr :=
  match bitField w 3 0 with
  | 0x0 => formatR w .nop
  | 0x1 => formatR w .encHb
  | 0x2 => formatR w .encCe
  | 0x3 => formatR w .decHb
  | 0x4 => formatR w .decCe
  | 0x5 => formatR w .dec
  | 0x6 => formatX w
  | 0x7 => formatR w .loop
  | _ => .error .reservedOpcode

/-- The opcode of a command (30_encoding R82). -/
def opcode : Instr → Nat
  | .nop => 0x0
  | .encHb => 0x1
  | .encCe => 0x2
  | .decHb => 0x3
  | .decCe => 0x4
  | .dec => 0x5
  | .extract _ _ _ _ _ => 0x6
  | .loop => 0x7

/-- The BE bit of a byte order (30_encoding R80). -/
def bitOfOrder : ByteOrder → Nat
  | .le => 0
  | .be => 1

/-- The operand bits of a command word (30_encoding R90): none in format R; in format X OFF at 4, NBM1 at 7, BE at 9, SH at 10,
WM1 at 15. -/
def operandBits : Instr → Nat
  | .nop => 0
  | .encHb => 0
  | .encCe => 0
  | .decHb => 0
  | .decCe => 0
  | .dec => 0
  | .extract off nb order sh w =>
      off * 2 ^ 4 + (nb - 1) * 2 ^ 7 + bitOfOrder order * 2 ^ 9 + sh * 2 ^ 10 + (w - 1) * 2 ^ 15
  | .loop => 0

/-- The command word of a well-formed command (30_encoding R90). -/
def encode (i : Instr) : Word := BitVec.ofNat 32 (opcode i + operandBits i)

/-- What the decoder reads from an instruction whose bits are `w`, numbered as spec/opcode_table.json numbers them. Every command
is one 32-bit word (30_encoding R85), so a wider word is none, and a narrower one has zeros above. -/
def decodeTableWord (nbits w : Nat) : Option Instr :=
  if nbits ≤ 32 then
    match decode (BitVec.ofNat 32 (w % 2 ^ nbits)) with
    | .ok i => some i
    | .error _ => none
  else none

end Sys2Proof
end

