-- ==== Sys2Proof/Config.lean ====
section
/-! DEFINITION. The configuration parameters P1 to P9 (00_scope R7), which the source leaves open: plain data, fixed at build time,
and the reference configuration of the spec's test vectors (00_scope R9). The spec leaves no instruction result open, so there is
no free value. -/

namespace Sys2Proof

/-- The parameters of a block (00_scope R7). Any value is a `Config`; the constraints of R8 are
`Machine.configValid`, and the step refuses a configuration that breaks them. -/
structure Config where
  /-- P1 `ID_HEARTBEAT`. -/
  idHeartbeat : Word
  /-- P2 `ID_COMM_ERROR`. -/
  idCommError : Word
  /-- P3 `ID_HANDBRAKE`. -/
  idHandbrake : Word
  /-- P4 `ID_ENCODER_SPEED`. -/
  idEncoderSpeed : Word
  /-- P5 `SIG_SHIFT`, the position of the turn-signal sub-field in heartbeat byte 2. -/
  sigShift : Nat
  /-- P6 `CE_ORDER`, the byte order of millisSinceLast on the wire (20_memory R58). -/
  ceOrder : ByteOrder
  /-- P7 `SYSTEM_ID_VALID`: the 8-bit values for which it holds. DESIGN CHOICE (log 7): a list, which is safe, since every
  predicate on 8-bit values is membership in some list. -/
  systemIds : List Byte
  /-- P8 `SYSTEM_MOTOR_CONTROL`. -/
  systemMotorControl : Byte
  /-- P9 `BASE`, the host address of window offset 0 (20_memory R50). -/
  base : Nat
deriving DecidableEq, Repr

/-- The reference configuration RC (00_scope R9): this spec's own numbers for its test vectors, no claim about any node. -/
def Config.reference : Config where
  idHeartbeat := 0x10
  idCommError := 0x11
  idHandbrake := 0x12
  idEncoderSpeed := 0x13
  sigShift := 2
  ceOrder := .le
  systemIds := [0, 1, 2, 3]
  systemMotorControl := 0x01
  base := 0

end Sys2Proof
end

