-- ==== Sys2Proof/Machine/State.lean ====
section
/-! DEFINITION. The architectural state of the block (10_state R21), the configuration it was built with, the host's side of the
bus, the reset state (10_state R35), and the reasons a step can stop. -/

namespace Sys2Proof.Machine

/-- The eight payload bytes of a frame, byte 0 first (10_state R22). -/
abbrev Payload := Vector Byte 8

/-- A frame: the three parts of FIN (10_state R22) and of FOUT (10_state R24). The length register is 8 bits wide and stores any
value 0 to 255 (10_state R23). -/
structure Frame where
  id : Word
  len : Byte
  pay : Payload
deriving DecidableEq, Repr

/-- The frame whose every bit is 0 (10_state R35). -/
def Frame.zero : Frame where
  id := 0
  len := 0
  pay := Vector.replicate 8 0

/-- STATUS (10_state R30): its three fields as bits. DEDUCED (log 8), safe: bits 7 and 31:9 read as 0 and ignore writes, so they
have no storage. -/
structure Status where
  /-- CODE, bits 3:0. -/
  code : BitVec 4
  /-- KIND, bits 6:4. -/
  kind : BitVec 3
  /-- STICKY, bit 8. -/
  sticky : Bool
deriving DecidableEq, Repr

/-- The status codes (30_encoding R86, 60_exceptions R201). -/
inductive StatusCode where
  | ok
  | wrongLength
  | wrongIdentifier
  | badField
  | unknownKind
  | reservedKind
  | badDescriptor
  | illegalCmd
deriving DecidableEq, Repr

/-- The message kinds (30_encoding R87); `none` is NONE. -/
inductive Kind where
  | none
  | heartbeat
  | commError
  | handbrake
  | encoderSpeed
deriving DecidableEq, Repr

/-- The registers of the window, by the names of 20_memory R51. -/
inductive WindowReg where
  | cmd
  | status
  | finId
  | finLen
  | finPay0
  | finPay1
  | foutId
  | foutLen
  | foutPay0
  | foutPay1
  | fwd
  | rev
  | dir
  | sig
  | sys
  | millis
  | xres
deriving DecidableEq, Repr

/-- What reaches the block from outside: one host access (00_scope R13: address, number of bytes and, for a write, the value) or the
platform's reset input (70_reset_and_hazards R230; log 5). -/
inductive HostInput where
  | read (addr bytes : Nat)
  | write (addr bytes : Nat) (value : Word)
  | reset
deriving DecidableEq, Repr

/-- The host's side of the bus: the MODEL'S OWN data, none of it state of the block (log 3, log 4). -/
structure HostPort where
  /-- What the host does next, in its program order (20_memory R61). -/
  pending : List HostInput
  /-- The index of the next host access (10_state R31), which has no width limit. -/
  accessIndex : Nat
  /-- The words host reads have returned, oldest first. -/
  reads : List Word
deriving DecidableEq, Repr

/-- The state of the model. The fields from `fin` to `status` are the block's architectural state, complete by 10_state R21; `config` is
the step's fixed argument (00_scope R7), carried unchanged (log 1); `host` is the host's side of the bus. -/
structure State where
  /-- FIN, the frame the decoder and the parser read (10_state R22). -/
  fin : Frame
  /-- FOUT, the frame the encoder writes (10_state R24). -/
  fout : Frame
  /-- FWD, forwardThrottle (10_state R26). -/
  fwd : Word
  /-- REV, reverseThrottle (10_state R26). -/
  rev : Word
  /-- DIR, direction (10_state R26). -/
  dir : Word
  /-- SIG, turn signals (10_state R26). -/
  sig : Word
  /-- SYS, systemId (10_state R26). -/
  sys : Word
  /-- MILLIS, millisSinceLast (10_state R26). -/
  millis : Word
  /-- XRES, the result of the last EXTRACT that completed with OK (10_state R28). -/
  xres : Word
  /-- CMD, the last word written to it (10_state R29). -/
  cmd : Word
  /-- STATUS (10_state R30). -/
  status : Status
  /-- P1 to P9 (00_scope R7). -/
  config : Config
  /-- The host's side of the bus. -/
  host : HostPort
deriving DecidableEq, Repr

/-- A block built with the parameters `c`, right after reset (10_state R35, R36): every state element 0. The host has done nothing
and plans nothing (log 4). -/
def State.resetWith (c : Config) : State where
  fin := Frame.zero
  fout := Frame.zero
  fwd := 0
  rev := 0
  dir := 0
  sig := 0
  sys := 0
  millis := 0
  xres := 0
  cmd := 0
  status := { code := 0, kind := 0, sticky := false }
  config := c
  host := { pending := [], accessIndex := 0, reads := [] }

/-- The machine right after reset (10_state R35). DESIGN CHOICE (log 2), unsafe where a claim leans on it: the spec leaves the
parameters open, and this one state takes the reference configuration of 00_scope R9. -/
def State.reset : State := State.resetWith Config.reference

/-- The block has no fault: "no trap, fault or exception mechanism that changes control flow" (60_exceptions R200). No constructor,
so no step can answer one; every abnormal outcome is a status code in a next state. -/
inductive Fault where
deriving DecidableEq, Repr

/-- Why the model takes no step. -/
inductive Refusal where
  /-- Raised by an arm of `exec` that has no meaning yet; no arm of this model raises it. Safe. -/
  | notModelled (mnemonic : String)
  /-- Raised by the step at a host access that is not 4 bytes wide, not at a multiple of 4 or not inside the window: "a model
  refuses it (it is not a fault of the block and not a value)" (20_memory R52). Safe. -/
  | undefinedAccess
  /-- Raised by the step when the parameters break 00_scope R8: "A model refuses a configuration that breaks any of these." Safe. -/
  | invalidConfiguration
deriving DecidableEq, Repr

end Sys2Proof.Machine
end

