-- ==== Sys2Proof/Machine/Flags.lean ====
section
/-! DEFINITION. STATUS, the block's only flags (10_state R30, R33): the encodings of codes and kinds, the word the host reads, and
the three ways STATUS changes. -/

namespace Sys2Proof.Machine

/-- STATUS.CODE values (30_encoding R86). -/
def codeBits : StatusCode → BitVec 4
  | .ok => 0
  | .wrongLength => 1
  | .wrongIdentifier => 2
  | .badField => 3
  | .unknownKind => 4
  | .reservedKind => 5
  | .badDescriptor => 6
  | .illegalCmd => 7

/-- STATUS.KIND values (30_encoding R87). -/
def kindBits : Kind → BitVec 3
  | .none => 0
  | .heartbeat => 1
  | .commError => 2
  | .handbrake => 3
  | .encoderSpeed => 4

/-- The STATUS word (30_encoding R88): STICKY ++ 0b0 ++ KIND ++ CODE, zero-extended to 32 bits. -/
def statusWord (t : Status) : Word :=
  ((BitVec.ofBool t.sticky ++ (0#1 ++ (t.kind ++ t.code)) : BitVec 9)).setWidth 32

/-- STATUS after a command that completes (10_state R33): CODE = OK, KIND `k`, STICKY unchanged. -/
def statusOk (k : Kind) (t : Status) : Status :=
  { t with code := codeBits .ok, kind := kindBits k }

/-- STATUS after `raise c` (60_exceptions R203): CODE `c`, STICKY = 1, KIND `k` as the command's rule sets it. -/
def statusRaised (c : StatusCode) (k : Kind) : Status :=
  { code := codeBits c, kind := kindBits k, sticky := true }

/-- STATUS after a host write of `w` to it (10_state R30): bit 8 = 1 clears STICKY, and nothing else changes. -/
def statusWritten (w : Word) (t : Status) : Status :=
  if w.getLsbD 8 then { t with sticky := false } else t

end Sys2Proof.Machine
end

