-- ==== Sys2Proof/Machine/Operands.lean ====
section
/-! DEFINITION. The values commands compute with: byte assembly (00_scope R14), payload bytes and lanes (20_memory R55), bit fields
and truncation (00_scope R12), the layout descriptor table with Unpack and Pack (30_encoding R76 to R78), and Classify
(30_encoding R79). -/

namespace Sys2Proof.Machine

/-! ### Fixed constants (00_scope R10) -/

/-- `CAP`, the payload capacity. -/
abbrev cap : Nat := 8

/-- `HB_LEN`, the heartbeat payload length. -/
def hbLen : Byte := 3

/-- `CE_LEN`, the comm-error payload length. -/
def ceLen : Byte := 5

/-- `FORWARD`, `REVERSE`, `NEUTRAL`: the direction codes (30_encoding R72). -/
def dirForward : BitVec 2 := 0
@[inherit_doc dirForward] def dirReverse : BitVec 2 := 1
@[inherit_doc dirForward] def dirNeutral : BitVec 2 := 2

/-- `SIGNAL_RIGHT`, `SIGNAL_LEFT` and `SIGNAL_HAZARD`, both of them (30_encoding R73). -/
def signalRight : BitVec 2 := 0x1
@[inherit_doc signalRight] def signalLeft : BitVec 2 := 0x2
@[inherit_doc signalRight] def signalHazard : BitVec 2 := signalRight ||| signalLeft

/-! ### Byte assembly (00_scope R14) -/

/-- `LE(b_0, ..., b_{n-1})`: the first byte is least significant. -/
def leValue : List Byte → Nat
  | [] => 0
  | b :: bs => b.toNat + 256 * leValue bs

/-- `ORDER(o, b_0, ..., b_{n-1})`: LE, or BE, which assembles the bytes with the first one most significant. -/
def assemble (o : ByteOrder) (bs : List Byte) : Nat :=
  match o with
  | .le => leValue bs
  | .be => leValue bs.reverse

/-- `bytesLE(v, n)`: the inverse of LE on an 8n-bit value. -/
def leBytes (v : Nat) : Nat → List Byte
  | 0 => []
  | n + 1 => BitVec.ofNat 8 v :: leBytes (v / 256) n

/-- `bytesORDER(o, v, n)`: the inverse of `assemble o` on an 8n-bit value. -/
def splitBytes (o : ByteOrder) (v n : Nat) : List Byte :=
  match o with
  | .le => leBytes v n
  | .be => (leBytes v n).reverse

/-! ### Bit fields (00_scope R11, R12) -/

/-- `mask(W) = 2^W - 1`. -/
def mask (w : Nat) : Nat := 2 ^ w - 1

/-- `zext_32((raw >> sh) & mask(w))` (30_encoding R77, 42_frame_parser R160). -/
def fieldOf (raw sh w : Nat) : Word := BitVec.ofNat 32 ((raw >>> sh) &&& mask w)

/-! ### Payload bytes -/

/-- The payload whose every byte is 0. -/
def zeroPayload : Payload := Vector.replicate 8 0

/-- `PAY[k]` for k in 0 to 7 (00_scope R13); 0 at any other k, which no command reads. -/
def payByte (p : Payload) (k : Nat) : Byte := p[k]?.getD 0

/-- `PAY[off], ..., PAY[off + nb - 1]`. -/
def payBytes (p : Payload) (off nb : Nat) : List Byte := (List.range nb).map fun k => payByte p (off + k)

/-- `p` with `PAY[off], ...` replaced by the bytes `bs`. -/
def putBytes (p : Payload) (off : Nat) (bs : List Byte) : Payload :=
  Vector.ofFn fun k => if off ≤ k.val ∧ k.val < off + bs.length then bs.getD (k.val - off) 0 else p[k]

/-- The four bytes from `off` as a window word, byte `off` in bits 7:0 (20_memory R51, R55). -/
def lanesOf (p : Payload) (off : Nat) : Word :=
  payByte p (off + 3) ++ (payByte p (off + 2) ++ (payByte p (off + 1) ++ payByte p off))

/-- `p` with the four bytes from `off` set from the lanes of `w` (20_memory R55). -/
def withLanes (p : Payload) (off : Nat) (w : Word) : Payload :=
  putBytes p off [w.extractLsb' 0 8, w.extractLsb' 8 8, w.extractLsb' 16 8, w.extractLsb' 24 8]

/-! ### Layout descriptors (30_encoding R76 to R78) -/

/-- A layout descriptor (off, nb, order, shift, width). -/
structure Descriptor where
  off : Nat
  nb : Nat
  order : ByteOrder
  shift : Nat
  width : Nat
deriving DecidableEq, Repr

/-- A descriptor's field lies inside the payload and inside the assembled bytes (30_encoding R76, 42_frame_parser R161). -/
def descriptorValid (d : Descriptor) : Bool :=
  decide (d.off + d.nb ≤ cap) && decide (d.shift + d.width ≤ 8 * d.nb)

/-- `Unpack(PAY, d)` (30_encoding R77). -/
def unpack (p : Payload) (d : Descriptor) : Word :=
  fieldOf (assemble d.order (payBytes p d.off d.nb)) d.shift d.width

/-- `raw'` of `Pack(PAY, d, v)` (30_encoding R78): `raw` with the field's bits replaced by the low `width` bits of `v`, all on
8 * nb bits. -/
def packedRaw (raw : Nat) (d : Descriptor) (v : Word) : BitVec (8 * d.nb) :=
  let m : BitVec (8 * d.nb) := BitVec.ofNat (8 * d.nb) (mask d.width) <<< d.shift
  (BitVec.ofNat (8 * d.nb) raw &&& ~~~m) ||| ((BitVec.ofNat (8 * d.nb) (v.toNat % 2 ^ d.width) <<< d.shift) &&& m)

/-- `Pack(PAY, d, v)` (30_encoding R78). -/
def pack (p : Payload) (d : Descriptor) (v : Word) : Payload :=
  putBytes p d.off (splitBytes d.order (packedRaw (assemble d.order (payBytes p d.off d.nb)) d v).toNat d.nb)

/-- The semantic field registers (10_state R26). -/
inductive FieldReg where
  | fwd
  | rev
  | dir
  | sig
  | sys
  | millis
deriving DecidableEq, Repr

/-- What a semantic field register holds. -/
def readField : FieldReg → State → Word
  | .fwd, s => s.fwd
  | .rev, s => s.rev
  | .dir, s => s.dir
  | .sig, s => s.sig
  | .sys, s => s.sys
  | .millis, s => s.millis

/-- One row of the layout descriptor table: a wire field of a kind and the register that holds it. -/
structure LayoutRow where
  kind : Kind
  reg : FieldReg
  desc : Descriptor
deriving DecidableEq, Repr

/-- The layout descriptor table (30_encoding R76), in the spec's order. -/
def layoutTable (c : Config) : List LayoutRow :=
  [ ⟨.heartbeat, .fwd, ⟨0, 1, .le, 0, 8⟩⟩,
    ⟨.heartbeat, .rev, ⟨1, 1, .le, 0, 8⟩⟩,
    ⟨.heartbeat, .dir, ⟨2, 1, .le, 0, 2⟩⟩,
    ⟨.heartbeat, .sig, ⟨2, 1, .le, c.sigShift, 2⟩⟩,
    ⟨.commError, .sys, ⟨0, 1, .le, 0, 8⟩⟩,
    ⟨.commError, .millis, ⟨1, 4, c.ceOrder, 0, 32⟩⟩ ]

/-- The payload made by packing every field of kind `k` from its register into `p` (40_encoder R111). -/
def packKind (k : Kind) (s : State) (p : Payload) : Payload :=
  ((layoutTable s.config).filter (fun r => r.kind = k)).foldl (fun q r => pack q r.desc (readField r.reg s)) p

/-! ### Identifiers -/

/-- `Classify(id)` (30_encoding R79): all 32 bits compared. -/
def classify (c : Config) (id : Word) : Kind :=
  if id = c.idHeartbeat then .heartbeat
  else if id = c.idCommError then .commError
  else if id = c.idHandbrake then .handbrake
  else if id = c.idEncoderSpeed then .encoderSpeed
  else .none

/-- `SYSTEM_ID_VALID(v)`, parameter P7 (00_scope R7). -/
def systemIdValid (c : Config) (v : Byte) : Bool := c.systemIds.contains v

end Sys2Proof.Machine
end

