-- ==== Sys2Proof/Machine/Ops.lean ====
section
/-! DEFINITION. The named operations over the state: the outcome of a command, `raise` (60_exceptions R203) and the clearing of
STICKY, the register window (20_memory R51 to R57), reset (70_reset_and_hazards R230), and taking the host's next input. -/

namespace Sys2Proof.Machine

/-! ### Writing state -/

/-- FIN, whole. -/
def setFin (f : Frame) (s : State) : State := { s with fin := f }

/-- FOUT, whole (40_encoder R110). -/
def setFout (f : Frame) (s : State) : State := { s with fout := f }

/-- The four heartbeat field registers (41_decoder R132). -/
def setHeartbeat (f r d g : Word) (s : State) : State := { s with fwd := f, rev := r, dir := d, sig := g }

/-- The two comm-error field registers (41_decoder R133). -/
def setCommError (y m : Word) (s : State) : State := { s with sys := y, millis := m }

/-- XRES (42_frame_parser R160). -/
def setXres (x : Word) (s : State) : State := { s with xres := x }

/-- CMD (10_state R29). -/
def setCmd (w : Word) (s : State) : State := { s with cmd := w }

/-- STATUS. -/
def setStatus (t : Status) (s : State) : State := { s with status := t }

/-! ### How a command ends -/

/-- The command completes: CODE = OK, KIND `k`, STICKY unchanged (10_state R33). -/
def endOk (k : Kind) (s : State) : State := setStatus (statusOk k s.status) s

/-- `raise c` with STATUS.KIND `k` (60_exceptions R203): STATUS only. This is the block's whole exception entry; it saves nothing
else and transfers no control (60_exceptions R206). -/
def raiseCode (c : StatusCode) (k : Kind) (s : State) : State := setStatus (statusRaised c k) s

/-- A host write to STATUS (10_state R30), which is what clears STICKY: the block has no return from a status code
(60_exceptions R207). -/
def writeStatus (w : Word) (s : State) : State := setStatus (statusWritten w s.status) s

/-- An illegal command word (43_control R182). CMD already holds the word (10_state R29). -/
def illegalCommand (s : State) : State := raiseCode .illegalCmd .none s

/-! ### Reset -/

/-- The reset input (70_reset_and_hazards R230): every element of the block's state takes its reset value, the parameters keep
theirs (10_state R36), and the host's own side is untouched. -/
def resetBlock (s : State) : State := { State.resetWith s.config with host := s.host }

/-! ### The register window (20_memory) -/

/-- The window size in bytes (20_memory R50). -/
abbrev windowSize : Nat := 256

/-- The register at a window offset (20_memory R51); `none` is an unmapped offset. -/
def regAt : Nat → Option WindowReg
  | 0x00 => some .cmd
  | 0x04 => some .status
  | 0x08 => some .finId
  | 0x0C => some .finLen
  | 0x10 => some .finPay0
  | 0x14 => some .finPay1
  | 0x18 => some .foutId
  | 0x1C => some .foutLen
  | 0x20 => some .foutPay0
  | 0x24 => some .foutPay1
  | 0x28 => some .fwd
  | 0x2C => some .rev
  | 0x30 => some .dir
  | 0x34 => some .sig
  | 0x38 => some .sys
  | 0x3C => some .millis
  | 0x40 => some .xres
  | _ => none

/-- The window offset of a register (20_memory R51). -/
def offsetOf : WindowReg → Nat
  | .cmd => 0x00
  | .status => 0x04
  | .finId => 0x08
  | .finLen => 0x0C
  | .finPay0 => 0x10
  | .finPay1 => 0x14
  | .foutId => 0x18
  | .foutLen => 0x1C
  | .foutPay0 => 0x20
  | .foutPay1 => 0x24
  | .fwd => 0x28
  | .rev => 0x2C
  | .dir => 0x30
  | .sig => 0x34
  | .sys => 0x38
  | .millis => 0x3C
  | .xres => 0x40

/-- The offset a host access reaches, if it is the one defined access: 4 bytes, inside the window, at a multiple of 4
(20_memory R52). -/
def accessOffset (c : Config) (addr bytes : Nat) : Option Nat :=
  if bytes = 4 ∧ c.base ≤ addr ∧ addr < c.base + windowSize ∧ (addr - c.base) % 4 = 0 then some (addr - c.base) else none

/-- What a register reads as (20_memory R51, R55, R56). -/
def readReg (r : WindowReg) (s : State) : Word :=
  match r with
  | .cmd => s.cmd
  | .status => statusWord s.status
  | .finId => s.fin.id
  | .finLen => s.fin.len.setWidth 32
  | .finPay0 => lanesOf s.fin.pay 0
  | .finPay1 => lanesOf s.fin.pay 4
  | .foutId => s.fout.id
  | .foutLen => s.fout.len.setWidth 32
  | .foutPay0 => lanesOf s.fout.pay 0
  | .foutPay1 => lanesOf s.fout.pay 4
  | .fwd => s.fwd
  | .rev => s.rev
  | .dir => s.dir
  | .sig => s.sig
  | .sys => s.sys
  | .millis => s.millis
  | .xres => s.xres

/-- What a host write of `w` stores in a register: FIN_LEN keeps bits 7:0, STATUS only loses STICKY, a read-only register ignores
it (20_memory R54 to R56). For CMD this is the storing half of 10_state R29; the step then performs the command. -/
def writeReg (r : WindowReg) (w : Word) (s : State) : State :=
  match r with
  | .cmd => setCmd w s
  | .status => writeStatus w s
  | .finId => setFin { s.fin with id := w } s
  | .finLen => setFin { s.fin with len := w.setWidth 8 } s
  | .finPay0 => setFin { s.fin with pay := withLanes s.fin.pay 0 w } s
  | .finPay1 => setFin { s.fin with pay := withLanes s.fin.pay 4 w } s
  | .foutId => s
  | .foutLen => s
  | .foutPay0 => s
  | .foutPay1 => s
  | .fwd => { s with fwd := w }
  | .rev => { s with rev := w }
  | .dir => { s with dir := w }
  | .sig => { s with sig := w }
  | .sys => { s with sys := w }
  | .millis => { s with millis := w }
  | .xres => s

/-- A read of a window offset; an unmapped one reads 0 (20_memory R53). -/
def readOffset (off : Nat) (s : State) : Word :=
  match regAt off with
  | some r => readReg r s
  | none => 0

/-- A write to a window offset; an unmapped one changes nothing (20_memory R53). -/
def writeOffset (off : Nat) (w : Word) (s : State) : State :=
  match regAt off with
  | some r => writeReg r w s
  | none => s

/-! ### The host's next input -/

/-- The host's remaining inputs. -/
def setPending (l : List HostInput) (s : State) : State := { s with host := { s.host with pending := l } }

/-- One access is performed: the host goes on to `rest`, and its index advances by one (10_state R31). -/
def accessDone (rest : List HostInput) (s : State) : State :=
  { s with host := { s.host with pending := rest, accessIndex := s.host.accessIndex + 1 } }

/-- The word a host read returns. -/
def returnWord (v : Word) (s : State) : State := { s with host := { s.host with reads := s.host.reads ++ [v] } }

/-- The constraints on the parameters (00_scope R8). -/
abbrev configValid (c : Config) : Prop :=
  [c.idHeartbeat, c.idCommError, c.idHandbrake, c.idEncoderSpeed].Nodup ∧ 2 ≤ c.sigShift ∧ c.sigShift ≤ 6 ∧
    systemIdValid c c.systemMotorControl = true

/-- What the host's next input asks of the block. -/
inductive Action where
  /-- The model takes no step. -/
  | refuse (r : Refusal)
  /-- Complete: the state is `t`. -/
  | done (t : State)
  /-- The word `w` has been stored in CMD, giving `t`; the block now performs it (10_state R29). -/
  | command (w : Word) (t : State)
deriving DecidableEq, Repr

/-- A defined host write (20_memory R57): to CMD it performs a command, elsewhere it stores. -/
def hostWrite (off : Nat) (w : Word) (s : State) : Action :=
  if regAt off = some .cmd then .command w (writeReg .cmd w s) else .done (writeOffset off w s)

/-- Taking the host's next input (10_state R20, 20_memory R52, R61). With no input pending the block does nothing: it "never
changes state on its own" (10_state R20). -/
def nextAction (s : State) : Action :=
  if configValid s.config then
    match s.host.pending with
    | [] => .done s
    | .reset :: rest => .done (resetBlock (setPending rest s))
    | .read addr bytes :: rest =>
      match accessOffset s.config addr bytes with
      | some off => .done (returnWord (readOffset off s) (accessDone rest s))
      | none => .refuse .undefinedAccess
    | .write addr bytes w :: rest =>
      match accessOffset s.config addr bytes with
      | some off => hostWrite off w (accessDone rest s)
      | none => .refuse .undefinedAccess
  else .refuse .invalidConfiguration

/-- The host input that writes `w` to CMD (30_encoding R91: `CMD <command>`). -/
def cmdWrite (c : Config) (w : Word) : HostInput := .write (c.base + offsetOf .cmd) 4 w

end Sys2Proof.Machine
end

