-- ==== Sys2Proof/Machine/Control.lean ====
section
/-! DEFINITION. Control commands: NOP and LOOP (43_control). -/

namespace Sys2Proof.Machine

/-- NOP (43_control R180): nothing, not even STATUS. -/
def execNop (s : State) : Host.Outcome State Fault Refusal := .next s

/-- LOOP (43_control R181): FOUT, all of it, into FIN. -/
def execLoop (s : State) : Host.Outcome State Fault Refusal := .next (endOk .none (setFin s.fout s))

end Sys2Proof.Machine
end

