-- ==== Sys2Proof/Machine/Decoder.lean ====
section
/-! DEFINITION. message_decoder: DEC.HB, DEC.CE and DEC (41_decoder). -/

namespace Sys2Proof.Machine

/-- The direction code of heartbeat byte 2 (41_decoder R132). -/
def directionOf (b2 : Byte) : BitVec 2 := b2.extractLsb' 0 2

/-- The signals of heartbeat byte 2 (41_decoder R132): `(b2 >> SIG_SHIFT)[1:0]`. -/
def signalsOf (c : Config) (b2 : Byte) : BitVec 2 := (b2 >>> c.sigShift).extractLsb' 0 2

/-- The field check and writes of DEC.HB, from "b2 = FIN.PAY[2]" on (41_decoder R132); `failKind` is the kind a BAD_FIELD reports,
NONE for DEC.HB and the classified kind for DEC (41_decoder R134). -/
def decodeHeartbeatFields (failKind : Kind) (s : State) : State :=
  let b2 := payByte s.fin.pay 2
  if directionOf b2 = 3 then raiseCode .badField failKind s
  else
    endOk .heartbeat
      (setHeartbeat ((payByte s.fin.pay 0).setWidth 32) ((payByte s.fin.pay 1).setWidth 32)
        ((directionOf b2).setWidth 32) ((signalsOf s.config b2).setWidth 32) s)

/-- The field check and writes of DEC.CE, from "sy = FIN.PAY[0]" on (41_decoder R133); `failKind` as above. -/
def decodeCommErrorFields (failKind : Kind) (s : State) : State :=
  let sy := payByte s.fin.pay 0
  if systemIdValid s.config sy then
    endOk .commError
      (setCommError (sy.setWidth 32) (BitVec.ofNat 32 (assemble s.config.ceOrder (payBytes s.fin.pay 1 4))) s)
  else raiseCode .badField failKind s

/-- DEC.HB (41_decoder R131, R132): length, then identifier, then field range. -/
def execDecHb (s : State) : Host.Outcome State Fault Refusal :=
  .next
    (if s.fin.len ≠ hbLen then raiseCode .wrongLength .none s
     else if s.fin.id ≠ s.config.idHeartbeat then raiseCode .wrongIdentifier .none s
     else decodeHeartbeatFields .none s)

/-- DEC.CE (41_decoder R131, R133): length, then identifier, then field range. -/
def execDecCe (s : State) : Host.Outcome State Fault Refusal :=
  .next
    (if s.fin.len ≠ ceLen then raiseCode .wrongLength .none s
     else if s.fin.id ≠ s.config.idCommError then raiseCode .wrongIdentifier .none s
     else decodeCommErrorFields .none s)

/-- DEC (41_decoder R134): the identifier chooses the decoder, and KIND is the classified kind on every outcome. -/
def execDec (s : State) : Host.Outcome State Fault Refusal :=
  .next
    (match classify s.config s.fin.id with
     | .none => raiseCode .unknownKind .none s
     | .handbrake => raiseCode .reservedKind .handbrake s
     | .encoderSpeed => raiseCode .reservedKind .encoderSpeed s
     | .heartbeat =>
       if s.fin.len ≠ hbLen then raiseCode .wrongLength .heartbeat s else decodeHeartbeatFields .heartbeat s
     | .commError =>
       if s.fin.len ≠ ceLen then raiseCode .wrongLength .commError s else decodeCommErrorFields .commError s)

end Sys2Proof.Machine
end

