-- ==== Sys2Proof/Machine/Encoder.lean ====
section
/-! DEFINITION. message_encoder: ENC.HB and ENC.CE (40_encoder). -/

namespace Sys2Proof.Machine

/-- Heartbeat byte 2 (30_encoding R71, 40_encoder R111): direction in bits 1:0, signals at SIG_SHIFT, every other bit 0. -/
def heartbeatByte2 (c : Config) (dir sig : Word) : Byte :=
  (dir.setWidth 2).setWidth 8 ||| ((sig.setWidth 2).setWidth 8 <<< c.sigShift)

/-- The heartbeat frame of the field registers (40_encoder R111). -/
def heartbeatFrame (s : State) : Frame where
  id := s.config.idHeartbeat
  len := hbLen
  pay := putBytes zeroPayload 0 [s.fwd.setWidth 8, s.rev.setWidth 8, heartbeatByte2 s.config s.dir s.sig]

/-- The comm-error frame of the field registers (40_encoder R112). -/
def commErrorFrame (s : State) : Frame where
  id := s.config.idCommError
  len := ceLen
  pay := putBytes zeroPayload 0 (s.sys.setWidth 8 :: splitBytes s.config.ceOrder s.millis.toNat 4)

/-- ENC.HB (40_encoder R111). -/
def execEncHb (s : State) : Host.Outcome State Fault Refusal :=
  .next (endOk .heartbeat (setFout (heartbeatFrame s) s))

/-- ENC.CE (40_encoder R112). -/
def execEncCe (s : State) : Host.Outcome State Fault Refusal :=
  .next (endOk .commError (setFout (commErrorFrame s) s))

end Sys2Proof.Machine
end

