-- ==== Sys2Proof/Machine/Parser.lean ====
section
/-! DEFINITION. frame_parser: EXTRACT (42_frame_parser). -/

namespace Sys2Proof.Machine

/-- EXTRACT (42_frame_parser R160): the descriptor check depends on the command alone (R161), then the frame's length (R162); the
result is Unpack of FIN.PAY. FIN.ID is not read (R163). -/
def execExtract (off nb : Nat) (order : ByteOrder) (sh w : Nat) (s : State) : Host.Outcome State Fault Refusal :=
  .next
    (if descriptorValid ⟨off, nb, order, sh, w⟩ = false then raiseCode .badDescriptor .none s
     else if cap < s.fin.len.toNat ∨ s.fin.len.toNat < off + nb then raiseCode .wrongLength .none s
     else endOk .none (setXres (unpack s.fin.pay ⟨off, nb, order, sh, w⟩) s))

end Sys2Proof.Machine
end

