-- ==== Sys2Proof/Machine/Dispatch.lean ====
section
/-! DEFINITION. One arm per command: a direct call of its meaning. -/

namespace Sys2Proof.Machine

/-- What the block does when it performs a command (10_state R20). CMD already holds the command's word (10_state R29). -/
def exec (i : Instr) (s : State) : Host.Outcome State Fault Refusal :=
  match i with
  | .nop => Sys2Proof.Machine.execNop s
  | .encHb => Sys2Proof.Machine.execEncHb s
  | .encCe => Sys2Proof.Machine.execEncCe s
  | .decHb => Sys2Proof.Machine.execDecHb s
  | .decCe => Sys2Proof.Machine.execDecCe s
  | .dec => Sys2Proof.Machine.execDec s
  | .extract off nb order sh w => Sys2Proof.Machine.execExtract off nb order sh w s
  | .loop => Sys2Proof.Machine.execLoop s

end Sys2Proof.Machine
end

