-- ==== Sys2Proof/Machine/Step.lean ====
section
/-! DEFINITION. One step of the model: the host's next input, and the command it starts if it is a write to CMD (10_state R20). -/

namespace Sys2Proof.Machine

/-- One step. A CMD write stores its word and performs it, in the same step (10_state R20, R29); a word the decoder rejects
performs 43_control R182. -/
def step (s : State) : Host.Outcome State Fault Refusal :=
  match nextAction s with
  | .refuse r => .refused r
  | .done t => .next t
  | .command w t =>
    match decode w with
    | .ok i => exec i t
    | .error _ => .next (illegalCommand t)

/-- `s` with the host about to write the command word `w` to CMD, so that the very next step performs it. Where the block's
commands come from is the host (10_state R31); this stands for the host's next access (log 3). -/
def State.withFetchWord (s : State) (nbits w : Nat) : State :=
  setPending (cmdWrite s.config (BitVec.ofNat 32 (w % 2 ^ nbits)) :: s.host.pending) s

end Sys2Proof.Machine
end

