-- ==== Sys2Proof/Machine/Assembler.lean ====
section
/-! DEFINITION. Assembler and host-program notation (30_encoding R90 to R92), on lines already cut into tokens (log 13). Nothing of
the machine depends on it. -/

namespace Sys2Proof.Machine

/-- An operand token: a number, or a name such as LE. -/
inductive AsmOperand where
  | num (n : Nat)
  | name (text : List Char)
deriving DecidableEq, Repr

/-- A line of a host program (30_encoding R91, R92). -/
inductive AsmLine where
  /-- `WR <reg>, <value>`. -/
  | wr (reg : List Char) (value : Nat)
  /-- `RD <reg>`. -/
  | rd (reg : List Char)
  /-- `CMD <command>`. -/
  | cmd (mnemonic : List Char) (operands : List AsmOperand)
  /-- `CLRSTICKY`. -/
  | clrSticky
deriving DecidableEq, Repr

/-- Mnemonics are case-insensitive (30_encoding R90). -/
def isMnemonic (text : List Char) (m : String) : Bool := text.map Char.toUpper == m.toList

/-- The order operand, `LE` or `BE` (30_encoding R90). -/
def orderNamed (text : List Char) : Option ByteOrder :=
  if text == "LE".toList then some .le else if text == "BE".toList then some .be else none

/-- `EXTRACT.B off` (30_encoding R92). -/
def extractByte (off : Nat) : Instr := .extract off 1 .le 0 8

/-- `EXTRACT.DIR` (30_encoding R92). -/
def extractDir : Instr := .extract 2 1 .le 0 2

/-- `EXTRACT.SIG` (30_encoding R92), P5 substituted. -/
def extractSig (c : Config) : Instr := .extract 2 1 .le c.sigShift 2

/-- `EXTRACT.MILLIS` (30_encoding R92), P6 substituted. -/
def extractMillis (c : Config) : Instr := .extract 1 4 c.ceOrder 0 32

/-- The command a mnemonic and its operands name: the eight commands (30_encoding R90) and the four pseudo-commands (R92). -/
def commandNamed (c : Config) (text : List Char) (operands : List AsmOperand) : Option Instr :=
  match operands with
  | [] =>
    if isMnemonic text "NOP" then some .nop
    else if isMnemonic text "ENC.HB" then some .encHb
    else if isMnemonic text "ENC.CE" then some .encCe
    else if isMnemonic text "DEC.HB" then some .decHb
    else if isMnemonic text "DEC.CE" then some .decCe
    else if isMnemonic text "DEC" then some .dec
    else if isMnemonic text "LOOP" then some .loop
    else if isMnemonic text "EXTRACT.DIR" then some extractDir
    else if isMnemonic text "EXTRACT.SIG" then some (extractSig c)
    else if isMnemonic text "EXTRACT.MILLIS" then some (extractMillis c)
    else none
  | [.num off] => if isMnemonic text "EXTRACT.B" then some (extractByte off) else none
  | [.num off, .num nb, .name order, .num sh, .num w] =>
    if isMnemonic text "EXTRACT" then (orderNamed order).map fun o => .extract off nb o sh w else none
  | _ => none

/-- The assembler refuses operands outside their ranges, and assembles descriptors that break 42_frame_parser R161
(30_encoding R90). -/
def assembleCommand (c : Config) (text : List Char) (operands : List AsmOperand) : Option Word :=
  match commandNamed c text operands with
  | some i => if i.wellFormed then some (encode i) else none
  | none => none

/-- The register of a name of 20_memory R51. -/
def regNamed (text : List Char) : Option WindowReg :=
  if text == "CMD".toList then some .cmd
  else if text == "STATUS".toList then some .status
  else if text == "FIN_ID".toList then some .finId
  else if text == "FIN_LEN".toList then some .finLen
  else if text == "FIN_PAY0".toList then some .finPay0
  else if text == "FIN_PAY1".toList then some .finPay1
  else if text == "FOUT_ID".toList then some .foutId
  else if text == "FOUT_LEN".toList then some .foutLen
  else if text == "FOUT_PAY0".toList then some .foutPay0
  else if text == "FOUT_PAY1".toList then some .foutPay1
  else if text == "FWD".toList then some .fwd
  else if text == "REV".toList then some .rev
  else if text == "DIR".toList then some .dir
  else if text == "SIG".toList then some .sig
  else if text == "SYS".toList then some .sys
  else if text == "MILLIS".toList then some .millis
  else if text == "XRES".toList then some .xres
  else none

/-- `WR <reg>, <value>`: MemWrite(BASE + offset(reg), 4, value) (30_encoding R91); the value is 32 bits wide. -/
def writeTo (c : Config) (r : WindowReg) (value : Word) : HostInput := .write (c.base + offsetOf r) 4 value

/-- `RD <reg>`: MemRead(BASE + offset(reg), 4) (30_encoding R91). -/
def readFrom (c : Config) (r : WindowReg) : HostInput := .read (c.base + offsetOf r) 4

/-- The host access of a program line (30_encoding R91, R92). -/
def assembleLine (c : Config) : AsmLine → Option HostInput
  | .wr reg value =>
    match regNamed reg with
    | some r => if value < 2 ^ 32 then some (writeTo c r (BitVec.ofNat 32 value)) else none
    | none => none
  | .rd reg => (regNamed reg).map (readFrom c)
  | .cmd mnemonic operands => (assembleCommand c mnemonic operands).map (cmdWrite c)
  | .clrSticky => some (writeTo c .status 0x00000100)

/-- `s` with the host about to perform the accesses of a whole program; `none` if a line is refused. -/
def loadProgram (lines : List AsmLine) (s : State) : Option State :=
  (lines.mapM (assembleLine s.config)).map fun l => setPending l s

end Sys2Proof.Machine
end

