-- ==== Sys2Proof/Safety.lean ====
section
/-! DEFINITION. The terms the statements use: the invariants of the block (10_state R25, R30), and the spec's own wording of an
illegal word, a defined access, a failed command and a decoded frame, each written from the spec and not from the meanings. -/

namespace Sys2Proof.Safety

open Sys2Proof.Machine

/-! ### Invariants -/

/-- 10_state R25: FOUT.LEN is 0, 3 or 5, and every byte of FOUT at or beyond FOUT.LEN is 0. -/
abbrev FoutInv (s : State) : Prop :=
  (s.fout.len.toNat = 0 ∨ s.fout.len.toNat = 3 ∨ s.fout.len.toNat = 5) ∧
    ∀ k : Fin 8, s.fout.len.toNat ≤ k.val → payByte s.fout.pay k.val = 0

/-- 10_state R30: CODE takes only the values 0 to 7 and KIND only 0 to 4. -/
abbrev StatusLegal (s : State) : Prop := s.status.code.toNat ≤ 7 ∧ s.status.kind.toNat ≤ 4

/-- What every step keeps. -/
abbrev BlockInv (s : State) : Prop := FoutInv s ∧ StatusLegal s

/-! ### Words and accesses -/

/-- 30_encoding R83: OP is 0x8 to 0xF; or OP is not 0x6 and bits 31:4 are not 0; or OP is 0x6 and bits 31:20 are not 0. -/
abbrev IllegalWord (w : Word) : Prop :=
  8 ≤ w.toNat % 16 ∨ (w.toNat % 16 ≠ 6 ∧ w.toNat / 2 ^ 4 ≠ 0) ∨ (w.toNat % 16 = 6 ∧ w.toNat / 2 ^ 20 ≠ 0)

/-- 20_memory R52: 4 bytes, inside the window, at an offset that is a multiple of 4. -/
abbrev DefinedAccess (c : Config) (addr bytes : Nat) : Prop :=
  bytes = 4 ∧ c.base ≤ addr ∧ addr < c.base + 256 ∧ (addr - c.base) % 4 = 0

/-- The host's next input is one the spec gives a meaning: none at all, reset, or a defined access. -/
def NextInputDefined (s : State) : Prop :=
  match s.host.pending with
  | [] => True
  | .reset :: _ => True
  | .read addr bytes :: _ => DefinedAccess s.config addr bytes
  | .write addr bytes _ :: _ => DefinedAccess s.config addr bytes

/-- The register map, offset and name (20_memory R51). -/
def registerMap : List (Nat × WindowReg) :=
  [ (0x00, .cmd), (0x04, .status), (0x08, .finId), (0x0C, .finLen), (0x10, .finPay0), (0x14, .finPay1),
    (0x18, .foutId), (0x1C, .foutLen), (0x20, .foutPay0), (0x24, .foutPay1), (0x28, .fwd), (0x2C, .rev),
    (0x30, .dir), (0x34, .sig), (0x38, .sys), (0x3C, .millis), (0x40, .xres) ]

/-- The host's side after it has performed one access that returned the words `got`, with `rest` to follow. -/
def hostAfter (s : State) (rest : List HostInput) (got : List Word) : HostPort where
  pending := rest
  accessIndex := s.host.accessIndex + 1
  reads := s.host.reads ++ got

/-- The host writes `w` at window offset `off` next, and then `rest`. -/
abbrev WritesNext (s : State) (off : Nat) (w : Word) (rest : List HostInput) : Prop :=
  s.host.pending = HostInput.write (s.config.base + off) 4 w :: rest

/-- The host reads window offset `off` next, and then does `rest`. -/
abbrev ReadsNext (s : State) (off : Nat) (rest : List HostInput) : Prop :=
  s.host.pending = HostInput.read (s.config.base + off) 4 :: rest

/-! ### Assembler syntax -/

/-- The command a mnemonic, in any case, and its operands stand for: the syntax tables of 30_encoding R90 and, with P5 and P6
substituted, R92. -/
def CommandSyntax (c : Config) (text : List Char) (ops : List AsmOperand) (i : Instr) : Prop :=
  let m := text.map Char.toUpper
  (m = "NOP".toList ∧ ops = [] ∧ i = .nop) ∨
  (m = "ENC.HB".toList ∧ ops = [] ∧ i = .encHb) ∨
  (m = "ENC.CE".toList ∧ ops = [] ∧ i = .encCe) ∨
  (m = "DEC.HB".toList ∧ ops = [] ∧ i = .decHb) ∨
  (m = "DEC.CE".toList ∧ ops = [] ∧ i = .decCe) ∨
  (m = "DEC".toList ∧ ops = [] ∧ i = .dec) ∨
  (m = "LOOP".toList ∧ ops = [] ∧ i = .loop) ∨
  (m = "EXTRACT".toList ∧ ∃ off nb sh w,
    (ops = [.num off, .num nb, .name "LE".toList, .num sh, .num w] ∧ i = .extract off nb .le sh w) ∨
    (ops = [.num off, .num nb, .name "BE".toList, .num sh, .num w] ∧ i = .extract off nb .be sh w)) ∨
  (m = "EXTRACT.B".toList ∧ ∃ off, ops = [.num off] ∧ i = .extract off 1 .le 0 8) ∨
  (m = "EXTRACT.DIR".toList ∧ ops = [] ∧ i = .extract 2 1 .le 0 2) ∨
  (m = "EXTRACT.SIG".toList ∧ ops = [] ∧ i = .extract 2 1 .le c.sigShift 2) ∨
  (m = "EXTRACT.MILLIS".toList ∧ ops = [] ∧ i = .extract 1 4 c.ceOrder 0 32)

/-- The register names of a program line with their offsets (30_encoding R91, 20_memory R51). -/
def registerNames : List (String × Nat) :=
  [ ("CMD", 0x00), ("STATUS", 0x04), ("FIN_ID", 0x08), ("FIN_LEN", 0x0C), ("FIN_PAY0", 0x10), ("FIN_PAY1", 0x14),
    ("FOUT_ID", 0x18), ("FOUT_LEN", 0x1C), ("FOUT_PAY0", 0x20), ("FOUT_PAY1", 0x24), ("FWD", 0x28), ("REV", 0x2C),
    ("DIR", 0x30), ("SIG", 0x34), ("SYS", 0x38), ("MILLIS", 0x3C), ("XRES", 0x40) ]

/-! ### Outcomes of commands -/

/-- The state after a command that raised `code` with kind `kind`: STATUS only (60_exceptions R203). -/
def failed (s : State) (code : BitVec 4) (kind : BitVec 3) : State :=
  { s with status := { code := code, kind := kind, sticky := true } }

/-- STATUS of a command that completed with kind `kind`: CODE = OK, STICKY unchanged (10_state R33). -/
def okStatus (s : State) (kind : BitVec 3) : Status := { code := 0, kind := kind, sticky := s.status.sticky }

/-- Payload byte `k` of FIN and of FOUT, as numbers. -/
def finByte (s : State) (k : Nat) : Nat := (payByte s.fin.pay k).toNat
@[inherit_doc finByte] def foutByte (s : State) (k : Nat) : Nat := (payByte s.fout.pay k).toNat

/-- 41_decoder R132 from "b2 = FIN.PAY[2]" on: direction code 3 raises BAD_FIELD with kind `failKind`; otherwise the four fields
are written and nothing else but STATUS changes. -/
def HeartbeatDecoded (failKind : BitVec 3) (s t : State) : Prop :=
  if finByte s 2 % 4 = 3 then t = failed s 3 failKind
  else
    t = { s with fwd := t.fwd, rev := t.rev, dir := t.dir, sig := t.sig, status := okStatus s 1 } ∧
      t.fwd.toNat = finByte s 0 ∧ t.rev.toNat = finByte s 1 ∧ t.dir.toNat = finByte s 2 % 4 ∧
      t.sig.toNat = finByte s 2 / 2 ^ s.config.sigShift % 4

/-- 41_decoder R133 from "sy = FIN.PAY[0]" on: a systemId outside P7 raises BAD_FIELD with kind `failKind`; otherwise the two
fields are written and nothing else but STATUS changes. -/
def CommErrorDecoded (failKind : BitVec 3) (s t : State) : Prop :=
  if payByte s.fin.pay 0 ∉ s.config.systemIds then t = failed s 3 failKind
  else
    t = { s with sys := t.sys, millis := t.millis, status := okStatus s 2 } ∧
      t.sys.toNat = finByte s 0 ∧
      t.millis.toNat =
        match s.config.ceOrder with
        | .le => finByte s 1 + 2 ^ 8 * finByte s 2 + 2 ^ 16 * finByte s 3 + 2 ^ 24 * finByte s 4
        | .be => finByte s 4 + 2 ^ 8 * finByte s 3 + 2 ^ 16 * finByte s 2 + 2 ^ 24 * finByte s 1

/-- Commands performed one after another, with no host access between them. -/
def runAll : List Instr → State → Host.Outcome State Fault Refusal
  | [], s => .next s
  | i :: is, s =>
    match exec i s with
    | .next t => runAll is t
    | .fault r => .fault r
    | .refused r => .refused r

end Sys2Proof.Safety
end

