-- ==== Sys2Proof/Certificates/Slice0/Obligations.lean ====
section
/-! DEFINITION. The statements for the provers. Each docstring names the rule of spec/ it formalises; a statement over `s : State`
holds for every configuration that meets 00_scope R8, since the parameters are a field of `s` (log 1). -/

open Sys2Proof Sys2Proof.Machine Sys2Proof.Safety

/-! ### Reset and configuration -/

/-- 10_state R35: after reset every state element is 0, for a block built with any parameters; `State.reset` is such a state. -/
def Obligations.ResetZeroesEveryElement : Prop :=
  (∃ c, State.reset = State.resetWith c) ∧
  ∀ c : Config,
    let s := State.resetWith c
    s.fin.id = 0 ∧ s.fin.len = 0 ∧ (∀ k, k < 8 → payByte s.fin.pay k = 0) ∧
    s.fout.id = 0 ∧ s.fout.len = 0 ∧ (∀ k, k < 8 → payByte s.fout.pay k = 0) ∧
    s.fwd = 0 ∧ s.rev = 0 ∧ s.dir = 0 ∧ s.sig = 0 ∧ s.sys = 0 ∧ s.millis = 0 ∧ s.xres = 0 ∧ s.cmd = 0 ∧
    statusWord s.status = 0

/-- 10_state R36: the parameters are not reset, and the rest of the block is as after reset. That reset is one of the host-side
inputs the step takes is the model's choice (log 5). -/
def Obligations.ResetInputKeepsParameters : Prop :=
  ∀ (s : State) (rest : List HostInput), configValid s.config → s.host.pending = .reset :: rest →
    step s = .next { State.resetWith s.config with host := { s.host with pending := rest } }

/-- 70_reset_and_hazards R232: each of the eight commands, performed right after reset, acts on the all-zero state. The spec
derives the rule from R230 and R134. -/
def Obligations.CommandsAfterReset : Prop :=
  ∀ c : Config, configValid c →
    let s := State.resetWith c
    exec .nop s = .next s ∧
    (∃ t, exec .encHb s = .next t ∧ t = { s with fout := t.fout, status := okStatus s 1 } ∧
      t.fout.id = c.idHeartbeat ∧ t.fout.len.toNat = 3 ∧ ∀ k, k < 8 → foutByte t k = 0) ∧
    (∃ t, exec .encCe s = .next t ∧ t = { s with fout := t.fout, status := okStatus s 2 } ∧
      t.fout.id = c.idCommError ∧ t.fout.len.toNat = 5 ∧ ∀ k, k < 8 → foutByte t k = 0) ∧
    exec .decHb s = .next (failed s 1 0) ∧
    exec .decCe s = .next (failed s 1 0) ∧
    exec .dec s = .next
      (if c.idHeartbeat = 0 then failed s 1 1
       else if c.idCommError = 0 then failed s 1 2
       else if c.idHandbrake = 0 then failed s 5 3
       else if c.idEncoderSpeed = 0 then failed s 5 4
       else failed s 4 0) ∧
    (∀ (off nb : Nat) (o : ByteOrder) (sh w : Nat), (Instr.extract off nb o sh w).wellFormed = true →
      exec (.extract off nb o sh w) s = .next (if 8 < off + nb ∨ 8 * nb < sh + w then failed s 6 0 else failed s 1 0)) ∧
    (∃ t, exec .loop s = .next t ∧ t = { s with fin := t.fin, status := okStatus s 0 } ∧
      t.fin.id = 0 ∧ t.fin.len = 0 ∧ ∀ k, k < 8 → finByte t k = 0)

/-- 00_scope section 4: a configuration that breaks a constraint on the parameters is refused, and no other is refused for that
reason. That the step refuses it in every state, before it looks at the host's input, is the model's choice (log 9, DEDUCED). -/
def Obligations.InvalidConfigurationRefused : Prop :=
  ∀ s : State, step s = .refused .invalidConfiguration ↔
    ¬ ((s.config.idHeartbeat ≠ s.config.idCommError ∧ s.config.idHeartbeat ≠ s.config.idHandbrake ∧
        s.config.idHeartbeat ≠ s.config.idEncoderSpeed ∧ s.config.idCommError ≠ s.config.idHandbrake ∧
        s.config.idCommError ≠ s.config.idEncoderSpeed ∧ s.config.idHandbrake ≠ s.config.idEncoderSpeed) ∧
      (2 ≤ s.config.sigShift ∧ s.config.sigShift ≤ 6) ∧ s.config.systemMotorControl ∈ s.config.systemIds)

/-- 00_scope section 4 (P1 to P9 "are fixed at build time; no command or register access changes them"), 10_state section 7. -/
def Obligations.NoStepChangesTheConfiguration : Prop :=
  ∀ s t : State, step s = .next t → t.config = s.config

/-! ### Decoding and encoding command words -/

/-- 30_encoding section 3: words written out from the tables of R80, R82 and R90, and words of R83. -/
def Obligations.WordsOfTheTables : Prop :=
  decode 0x00000000 = .ok .nop ∧ decode 0x00000001 = .ok .encHb ∧ decode 0x00000002 = .ok .encCe ∧
  decode 0x00000003 = .ok .decHb ∧ decode 0x00000004 = .ok .decCe ∧ decode 0x00000005 = .ok .dec ∧
  decode 0x00000007 = .ok .loop ∧ decode 0x000F8196 = .ok (.extract 1 4 .le 0 32) ∧
  decode 0x000F8396 = .ok (.extract 1 4 .be 0 32) ∧ decode 0x00007D86 = .ok (.extract 0 4 .le 31 1) ∧
  decode 0x00000008 = .error .reservedOpcode ∧ decode 0x00000011 = .error .reservedBitsR ∧
  decode 0x00100006 = .error .reservedBitsX

/-- 30_encoding section 3: every word is either exactly one well-formed command, whose word it is, or illegal; the decoder is total. -/
def Obligations.EveryWordIsOneCommandOrIllegal : Prop :=
  ∀ w : Word,
    (IllegalWord w ∧ ∃ r, decode w = .error r) ∨
    (¬ IllegalWord w ∧ ∃ i, i.wellFormed = true ∧ decode w = .ok i ∧ encode i = w)

/-- 30_encoding section 3: decoding the word of a well-formed command gives the command back, with every operand at every value. -/
def Obligations.DecodeEncodeRoundTrip : Prop :=
  ∀ i : Instr, i.wellFormed = true → decode (encode i) = .ok i

/-- 30_encoding section 5: a line names a command exactly as the tables of R90 and R92 say; the assembler gives it a word exactly
when its operands are in range, and that word decodes to that command, so operands out of range give no word; and a program line
is a defined access. That a line is given as tokens is the model's choice (log 13). -/
def Obligations.AssembledWordsDecode : Prop :=
  (∀ (c : Config) (text : List Char) (ops : List AsmOperand) (i : Instr),
    commandNamed c text ops = some i ↔ CommandSyntax c text ops i) ∧
  (∀ (c : Config) (text : List Char) (ops : List AsmOperand) (w : Word),
    assembleCommand c text ops = some w ↔
      ∃ i, commandNamed c text ops = some i ∧ i.wellFormed = true ∧ decode w = .ok i) ∧
  (∀ (c : Config) (text order : List Char) (off nb sh w : Nat),
    7 < off ∨ nb < 1 ∨ 4 < nb ∨ 31 < sh ∨ w < 1 ∨ 32 < w →
    assembleCommand c text [.num off, .num nb, .name order, .num sh, .num w] = none) ∧
  (∀ (c : Config) (text : List Char) (off : Nat), 7 < off → assembleCommand c text [.num off] = none) ∧
  (∀ (c : Config) (l : AsmLine) (x : HostInput), assembleLine c l = some x →
    (∃ addr, x = .read addr 4 ∧ DefinedAccess c addr 4) ∨ (∃ addr w, x = .write addr 4 w ∧ DefinedAccess c addr 4))

/-! ### The step -/

/-- 10_state section 5 (CMD): a host write of `w` stores `w` in CMD and then the block performs the command. -/
def Obligations.StepPerformsDecodedCommand : Prop :=
  ∀ (s : State) (rest : List HostInput) (w : Word) (i : Instr),
    configValid s.config → WritesNext s 0x00 w rest → decode w = .ok i →
    step s = exec i { s with cmd := w, host := hostAfter s rest [] }

/-- 43_control R182: an illegal word reports ILLEGAL_CMD with kind NONE and sets STICKY; the word stays in CMD, nothing else
changes. -/
def Obligations.IllegalWordReportsIllegalCmd : Prop :=
  ∀ (s : State) (rest : List HostInput) (w : Word),
    configValid s.config → WritesNext s 0x00 w rest → IllegalWord w →
    step s = .next { failed s 7 0 with cmd := w, host := hostAfter s rest [] }

/-- 20_memory section 2: an access of another width, unaligned or outside the window is refused. -/
def Obligations.UndefinedAccessRefused : Prop :=
  ∀ (s : State) (rest : List HostInput) (addr bytes : Nat) (w : Word),
    configValid s.config → ¬ DefinedAccess s.config addr bytes →
    (s.host.pending = .read addr bytes :: rest ∨ s.host.pending = .write addr bytes w :: rest) →
    step s = .refused .undefinedAccess

/-- 60_exceptions section 4 (no code is fatal) and 20_memory section 2: whatever the state, the block answers every defined input. -/
def Obligations.EveryDefinedInputCompletes : Prop :=
  ∀ s : State, configValid s.config → NextInputDefined s → ∃ t, step s = .next t

/-- 10_state section 1: with no host access the block changes nothing. That the model's step then answers the same state is the
model's choice (log 3). -/
def Obligations.NothingHappensWithoutInput : Prop :=
  ∀ s : State, configValid s.config → s.host.pending = [] → step s = .next s

/-- 10_state section 6 (the index advances by one per access) on the model's own host side (log 3, log 4): one step consumes one
input, and only a read returns a word, one. -/
def Obligations.HostSideAdvances : Prop :=
  ∀ (s t : State) (x : HostInput) (rest : List HostInput), s.host.pending = x :: rest → step s = .next t →
    t.host.pending = rest ∧
    t.host.accessIndex = (if x = .reset then s.host.accessIndex else s.host.accessIndex + 1) ∧
    ∃ got, t.host.reads = s.host.reads ++ got ∧ got.length = (match x with | .read _ _ => 1 | .write _ _ _ => 0 | .reset => 0)

/-! ### The register window -/

/-- 20_memory section 1 and section 2: a host read of a mapped register returns what the register holds and changes no state of the
block. -/
def Obligations.HostReadReturnsRegister : Prop :=
  ∀ (s : State) (rest : List HostInput) (off : Nat) (r : WindowReg),
    configValid s.config → (off, r) ∈ registerMap → ReadsNext s off rest →
    ∃ x, step s = .next { s with host := hostAfter s rest [x] } ∧
      match r with
      | .cmd => x = s.cmd
      | .status => x.toNat = s.status.code.toNat + 2 ^ 4 * s.status.kind.toNat + (if s.status.sticky then 2 ^ 8 else 0)
      | .finId => x = s.fin.id
      | .finLen => x.toNat = s.fin.len.toNat
      | .finPay0 => x.toNat = finByte s 0 + 2 ^ 8 * finByte s 1 + 2 ^ 16 * finByte s 2 + 2 ^ 24 * finByte s 3
      | .finPay1 => x.toNat = finByte s 4 + 2 ^ 8 * finByte s 5 + 2 ^ 16 * finByte s 6 + 2 ^ 24 * finByte s 7
      | .foutId => x = s.fout.id
      | .foutLen => x.toNat = s.fout.len.toNat
      | .foutPay0 => x.toNat = foutByte s 0 + 2 ^ 8 * foutByte s 1 + 2 ^ 16 * foutByte s 2 + 2 ^ 24 * foutByte s 3
      | .foutPay1 => x.toNat = foutByte s 4 + 2 ^ 8 * foutByte s 5 + 2 ^ 16 * foutByte s 6 + 2 ^ 24 * foutByte s 7
      | .fwd => x = s.fwd
      | .rev => x = s.rev
      | .dir => x = s.dir
      | .sig => x = s.sig
      | .sys => x = s.sys
      | .millis => x = s.millis
      | .xres => x = s.xres

/-- 20_memory R53: an unmapped offset reads 0 and changes no state; a write to one changes no state. -/
def Obligations.UnmappedOffsetsReadZero : Prop :=
  ∀ (s : State) (rest : List HostInput) (off : Nat), configValid s.config → 0x44 ≤ off → off ≤ 0xFC → off % 4 = 0 →
    (ReadsNext s off rest → step s = .next { s with host := hostAfter s rest [0] }) ∧
    (∀ w, WritesNext s off w rest → step s = .next { s with host := hostAfter s rest [] })

/-- 20_memory R54: writes to read-only registers change no state; a write to STATUS changes only STICKY, which bit 8 = 1 clears. -/
def Obligations.ReadOnlyRegistersIgnoreWrites : Prop :=
  ∀ (s : State) (rest : List HostInput) (off : Nat) (w : Word), configValid s.config → WritesNext s off w rest →
    (off ∈ [0x18, 0x1C, 0x20, 0x24, 0x40] → step s = .next { s with host := hostAfter s rest [] }) ∧
    (off = 0x04 → step s = .next
      { s with
        status := { s.status with sticky := if w.toNat / 2 ^ 8 % 2 = 1 then false else s.status.sticky }
        host := hostAfter s rest [] })

/-- 20_memory R55: a write to FIN_PAY0 sets payload bytes 0 to 3 from the lanes of the word, one to FIN_PAY1 bytes 4 to 7; the
other four bytes, and all else, keep their values; reads return the bytes in the same lanes. -/
def Obligations.PayloadLanes : Prop :=
  ∀ (s : State) (rest : List HostInput), configValid s.config →
    (∀ w, WritesNext s 0x10 w rest → ∃ t, step s = .next t ∧
      t = { s with fin := { s.fin with pay := t.fin.pay }, host := hostAfter s rest [] } ∧
      ∀ k, k < 8 → finByte t k = if k < 4 then w.toNat / 256 ^ k % 256 else finByte s k) ∧
    (∀ w, WritesNext s 0x14 w rest → ∃ t, step s = .next t ∧
      t = { s with fin := { s.fin with pay := t.fin.pay }, host := hostAfter s rest [] } ∧
      ∀ k, k < 8 → finByte t k = if k < 4 then finByte s k else w.toNat / 256 ^ (k - 4) % 256) ∧
    (∀ off, off ∈ [0x10, 0x14, 0x20, 0x24] → ReadsNext s off rest → ∃ x, step s = .next { s with host := hostAfter s rest [x] } ∧
      ∀ k, k < 4 → x.toNat / 256 ^ k % 256 =
        (if off < 0x20 then finByte s (off - 0x10 + k) else foutByte s (off - 0x20 + k)))

/-- 20_memory R56: FIN_LEN keeps bits 7:0 of the word; FIN_ID and the six field registers store all 32 bits. -/
def Obligations.RegisterWritesStoreTheWord : Prop :=
  ∀ (s : State) (rest : List HostInput) (off : Nat) (w : Word), configValid s.config → WritesNext s off w rest →
    (off = 0x0C → ∃ n : Byte, n.toNat = w.toNat % 256 ∧
      step s = .next { s with fin := { s.fin with len := n }, host := hostAfter s rest [] }) ∧
    (off = 0x08 → step s = .next { s with fin := { s.fin with id := w }, host := hostAfter s rest [] }) ∧
    (off = 0x28 → step s = .next { s with fwd := w, host := hostAfter s rest [] }) ∧
    (off = 0x2C → step s = .next { s with rev := w, host := hostAfter s rest [] }) ∧
    (off = 0x30 → step s = .next { s with dir := w, host := hostAfter s rest [] }) ∧
    (off = 0x34 → step s = .next { s with sig := w, host := hostAfter s rest [] }) ∧
    (off = 0x38 → step s = .next { s with sys := w, host := hostAfter s rest [] }) ∧
    (off = 0x3C → step s = .next { s with millis := w, host := hostAfter s rest [] })

/-- 30_encoding R88: the STATUS word is STICKY, a zero bit, KIND and CODE, zero-extended; with the two words the rule gives.
The spec derives the rule from R30, R86 and R87. -/
def Obligations.StatusWordLayout : Prop :=
  (∀ t : Status, (statusWord t).toNat =
    t.code.toNat + 2 ^ 4 * t.kind.toNat + 2 ^ 8 * (if t.sticky then 1 else 0)) ∧
  statusWord { code := codeBits .ok, kind := kindBits .heartbeat, sticky := false } = 0x00000010 ∧
  statusWord { code := codeBits .wrongLength, kind := kindBits .none, sticky := true } = 0x00000101

/-! ### Control commands -/

/-- 43_control R180: NOP, word 0, changes nothing; a word with OP = 0 and any of bits 31:4 set is not NOP but illegal. -/
def Obligations.NopChangesNothing : Prop :=
  decode 0x00000000 = .ok .nop ∧ (∀ s : State, exec .nop s = .next s) ∧
  ∀ w : Word, w.toNat % 16 = 0 → w.toNat / 16 ≠ 0 → ∃ r, decode w = .error r

/-- 43_control R181: LOOP, word 7, copies FOUT, all eight bytes, into FIN; OK, kind NONE, STICKY and all else unchanged. -/
def Obligations.LoopCopiesFoutToFin : Prop :=
  decode 0x00000007 = .ok .loop ∧
  ∀ s : State, ∃ t, exec .loop s = .next t ∧ t = { s with fin := t.fin, status := okStatus s 0 } ∧
    t.fin.id = s.fout.id ∧ t.fin.len = s.fout.len ∧ ∀ k, k < 8 → finByte t k = foutByte s k

/-! ### message_encoder -/

/-- 40_encoder R111: ENC.HB, word 1. Its hypothesis is 00_scope R8's, which keeps SIG_SHIFT in 2 to 6. -/
def Obligations.EncHbWritesHeartbeatFrame : Prop :=
  decode 0x00000001 = .ok .encHb ∧
  ∀ s : State, configValid s.config → ∃ t, exec .encHb s = .next t ∧
    t = { s with fout := t.fout, status := okStatus s 1 } ∧
    t.fout.id = s.config.idHeartbeat ∧ t.fout.len.toNat = 3 ∧
    foutByte t 0 = s.fwd.toNat % 2 ^ 8 ∧ foutByte t 1 = s.rev.toNat % 2 ^ 8 ∧
    foutByte t 2 = s.dir.toNat % 2 ^ 2 + s.sig.toNat % 2 ^ 2 * 2 ^ s.config.sigShift ∧
    (∀ k, 3 ≤ k → k < 8 → foutByte t k = 0) ∧
    t.fout.pay = packKind .heartbeat s zeroPayload

/-- 40_encoder R112: ENC.CE, word 2. -/
def Obligations.EncCeWritesCommErrorFrame : Prop :=
  decode 0x00000002 = .ok .encCe ∧
  ∀ s : State, ∃ t, exec .encCe s = .next t ∧
    t = { s with fout := t.fout, status := okStatus s 2 } ∧
    t.fout.id = s.config.idCommError ∧ t.fout.len.toNat = 5 ∧
    foutByte t 0 = s.sys.toNat % 2 ^ 8 ∧
    (s.config.ceOrder = .le → ∀ k, k < 4 → foutByte t (1 + k) = s.millis.toNat / 256 ^ k % 256) ∧
    (s.config.ceOrder = .be → ∀ k, k < 4 → foutByte t (4 - k) = s.millis.toNat / 256 ^ k % 256) ∧
    (∀ k, 5 ≤ k → k < 8 → foutByte t k = 0)

/-- 30_encoding section 2 with 40_encoder section 2: ENC.CE's payload is the comm-error rows of the layout table packed into an
all-zero payload. -/
def Obligations.EncCePacksTheLayoutTable : Prop :=
  ∀ s : State, ∃ t, exec .encCe s = .next t ∧ t.fout.pay = packKind .commError s zeroPayload

/-- 40_encoder R110: an encode command reads only the field registers of its kind (and the parameters), writes the whole of FOUT,
bytes at and beyond LEN 0, and STATUS, and nothing else; its code is OK. -/
def Obligations.EncodersReadOnlyTheirFields : Prop :=
  ∀ s u : State, s.config = u.config →
    (s.fwd = u.fwd → s.rev = u.rev → s.dir = u.dir → s.sig = u.sig →
      ∃ f : Frame, exec .encHb s = .next { s with fout := f, status := okStatus s 1 } ∧
        exec .encHb u = .next { u with fout := f, status := okStatus u 1 } ∧
        ∀ k, f.len.toNat ≤ k → k < 8 → payByte f.pay k = 0) ∧
    (s.sys = u.sys → s.millis = u.millis →
      ∃ f : Frame, exec .encCe s = .next { s with fout := f, status := okStatus s 2 } ∧
        exec .encCe u = .next { u with fout := f, status := okStatus u 2 } ∧
        ∀ k, f.len.toNat ≤ k → k < 8 → payByte f.pay k = 0)

/-- 40_encoder section 3: two encode commands in a row leave FOUT as the second alone would. -/
def Obligations.SecondEncodeOverwritesFirst : Prop :=
  ∀ (s : State) (i j : Instr), i ∈ [Instr.encHb, Instr.encCe] → j ∈ [Instr.encHb, Instr.encCe] →
    ∃ t u v, exec i s = .next t ∧ exec j t = .next u ∧ exec j s = .next v ∧ u = v

/-! ### message_decoder -/

/-- 41_decoder R132: DEC.HB, word 3: length, identifier, direction code, in that order; on OK the four fields, which are Unpack of
the layout rows, and STATUS; otherwise STATUS alone. -/
def Obligations.DecHbChecksThenWritesFields : Prop :=
  decode 0x00000003 = .ok .decHb ∧
  ∀ s : State, ∃ t, exec .decHb s = .next t ∧
    if s.fin.len.toNat ≠ 3 then t = failed s 1 0
    else if s.fin.id ≠ s.config.idHeartbeat then t = failed s 2 0
    else HeartbeatDecoded 0 s t ∧
      (t.status.code = 0 → t.fwd = unpack s.fin.pay ⟨0, 1, .le, 0, 8⟩ ∧ t.rev = unpack s.fin.pay ⟨1, 1, .le, 0, 8⟩ ∧
        t.dir = unpack s.fin.pay ⟨2, 1, .le, 0, 2⟩ ∧ t.sig = unpack s.fin.pay ⟨2, 1, .le, s.config.sigShift, 2⟩)

/-- 41_decoder R133: DEC.CE, word 4: length, identifier, systemId, in that order; on OK the two fields and STATUS; otherwise STATUS
alone. -/
def Obligations.DecCeChecksThenWritesFields : Prop :=
  decode 0x00000004 = .ok .decCe ∧
  ∀ s : State, ∃ t, exec .decCe s = .next t ∧
    if s.fin.len.toNat ≠ 5 then t = failed s 1 0
    else if s.fin.id ≠ s.config.idCommError then t = failed s 2 0
    else CommErrorDecoded 0 s t

/-- 41_decoder R134: DEC, word 5: the identifier chooses the decoder, KIND is the classified kind on every outcome. -/
def Obligations.DecDispatchesByIdentifier : Prop :=
  decode 0x00000005 = .ok .dec ∧
  ∀ s : State, configValid s.config → ∃ t, exec .dec s = .next t ∧
    (s.fin.id = s.config.idHeartbeat → if s.fin.len.toNat ≠ 3 then t = failed s 1 1 else HeartbeatDecoded 1 s t) ∧
    (s.fin.id = s.config.idCommError → if s.fin.len.toNat ≠ 5 then t = failed s 1 2 else CommErrorDecoded 2 s t) ∧
    (s.fin.id = s.config.idHandbrake → t = failed s 5 3) ∧
    (s.fin.id = s.config.idEncoderSpeed → t = failed s 5 4) ∧
    (s.fin.id ∉ [s.config.idHeartbeat, s.config.idCommError, s.config.idHandbrake, s.config.idEncoderSpeed] →
      t = failed s 4 0)

/-- 30_encoding R79: Classify names the one parameter the identifier equals, all 32 bits compared, and NONE otherwise. -/
def Obligations.ClassifyNamesTheKind : Prop :=
  ∀ (c : Config) (id : Word), configValid c →
    (classify c id = .heartbeat ↔ id = c.idHeartbeat) ∧ (classify c id = .commError ↔ id = c.idCommError) ∧
    (classify c id = .handbrake ↔ id = c.idHandbrake) ∧ (classify c id = .encoderSpeed ↔ id = c.idEncoderSpeed) ∧
    (classify c id = .none ↔ ∀ k ∈ [c.idHeartbeat, c.idCommError, c.idHandbrake, c.idEncoderSpeed], id ≠ k)

/-- 41_decoder R135: the round-trip laws, for DEC.HB and DEC (a) and for DEC.CE and DEC (b), in every valid configuration.
The spec derives them from R111, R112, R132 to R134 and R181. -/
def Obligations.RoundTripLaws : Prop :=
  ∀ s : State, configValid s.config →
    (s.fwd.toNat ≤ 255 → s.rev.toNat ≤ 255 → s.dir.toNat ≤ 2 → s.sig.toNat ≤ 3 →
      ∀ d ∈ [Instr.decHb, Instr.dec], ∃ t, runAll [.encHb, .loop, d] s = .next t ∧
        t.fwd = s.fwd ∧ t.rev = s.rev ∧ t.dir = s.dir ∧ t.sig = s.sig ∧ t.status.code = 0) ∧
    (s.sys.toNat ≤ 255 → s.sys.setWidth 8 ∈ s.config.systemIds →
      ∀ d ∈ [Instr.decCe, Instr.dec], ∃ t, runAll [.encCe, .loop, d] s = .next t ∧
        t.sys = s.sys ∧ t.millis = s.millis ∧ t.status.code = 0)

/-- 41_decoder section 3 (hazard): encoding HAZARD and decoding gives RIGHT | LEFT = 3, whatever the other fields, if the direction
encodes a direction. -/
def Obligations.HazardDecodesAsBothSignals : Prop :=
  ∀ s : State, configValid s.config → s.sig = signalHazard.setWidth 32 → s.dir.toNat % 4 ≠ 3 →
    ∃ t, runAll [.encHb, .loop, .decHb] s = .next t ∧
      t.sig = (signalRight ||| signalLeft).setWidth 32 ∧ t.sig.toNat = 3

/-- 40_encoder and 41_decoder together, two blocks of one configuration: what block `b` decodes from the frame block `a` encoded is
`a`'s fields truncated to their wire widths; a direction that truncates to code 3, or a systemId outside P7, is rejected and writes
no field. -/
def Obligations.FrameExchangeDeliversTruncatedFields : Prop :=
  ∀ a b : State, configValid a.config → b.config = a.config →
    (∃ a' t, exec .encHb a = .next a' ∧ exec .dec { b with fin := a'.fout } = .next t ∧
      if a.dir.toNat % 4 = 3 then t = failed { b with fin := a'.fout } 3 1
      else t.fwd.toNat = a.fwd.toNat % 256 ∧ t.rev.toNat = a.rev.toNat % 256 ∧ t.dir.toNat = a.dir.toNat % 4 ∧
        t.sig.toNat = a.sig.toNat % 4 ∧ t.sys = b.sys ∧ t.millis = b.millis ∧ t.status = okStatus b 1) ∧
    (∃ a' t, exec .encCe a = .next a' ∧ exec .dec { b with fin := a'.fout } = .next t ∧
      if a.sys.setWidth 8 ∉ a.config.systemIds then t = failed { b with fin := a'.fout } 3 2
      else t.sys.toNat = a.sys.toNat % 256 ∧ t.millis = a.millis ∧ t.fwd = b.fwd ∧ t.rev = b.rev ∧ t.dir = b.dir ∧
        t.sig = b.sig ∧ t.status = okStatus b 2)

/-- 41_decoder R137: two heartbeat frames that differ only in reserved bits of byte 2 decode to the same fields and status. -/
def Obligations.ReservedBitsIgnored : Prop :=
  ∀ (s : State) (q : Payload), s.fin.id = s.config.idHeartbeat →
    (∀ k, k < 8 → k ≠ 2 → payByte q k = payByte s.fin.pay k) →
    (∀ j, j ∈ [0, 1, s.config.sigShift, s.config.sigShift + 1] →
      (payByte q 2).getLsbD j = (payByte s.fin.pay 2).getLsbD j) →
    ∀ i ∈ [Instr.decHb, Instr.dec], ∃ t, exec i s = .next t ∧
      exec i { s with fin := { s.fin with pay := q } } = .next { t with fin := { t.fin with pay := q } }

/-! ### frame_parser -/

/-- 42_frame_parser R160 and R161: EXTRACT. Its word; BAD_DESCRIPTOR, then WRONG_LENGTH; otherwise XRES is the field: bit `j` is bit
`sh + j` of the assembled bytes, whose bit `m` is bit `m % 8` of byte `m / 8` from the first (LE) or from the last (BE). -/
def Obligations.ExtractTakesTheField : Prop :=
  ∀ (off nb : Nat) (o : ByteOrder) (sh w : Nat) (s : State), (Instr.extract off nb o sh w).wellFormed = true →
    ((encode (.extract off nb o sh w)).toNat =
        6 + off * 2 ^ 4 + (nb - 1) * 2 ^ 7 + (match o with | .le => 0 | .be => 2 ^ 9) + sh * 2 ^ 10 + (w - 1) * 2 ^ 15 ∧
      decode (encode (.extract off nb o sh w)) = .ok (.extract off nb o sh w)) ∧
    ∃ t, exec (.extract off nb o sh w) s = .next t ∧
      if 8 < off + nb ∨ 8 * nb < sh + w then t = failed s 6 0
      else if 8 < s.fin.len.toNat ∨ s.fin.len.toNat < off + nb then t = failed s 1 0
      else t = { s with xres := t.xres, status := okStatus s 0 } ∧ t.xres = unpack s.fin.pay ⟨off, nb, o, sh, w⟩ ∧
        ∀ j, j < 32 → t.xres.getLsbD j =
          (decide (j < w) &&
            (payByte s.fin.pay
              (match o with
               | .le => off + (sh + j) / 8
               | .be => off + (nb - 1) - (sh + j) / 8)).getLsbD ((sh + j) % 8))

/-- 42_frame_parser R163: EXTRACT does not read FIN.ID and checks it against no parameter. -/
def Obligations.ExtractIsKindAgnostic : Prop :=
  ∀ (off nb : Nat) (o : ByteOrder) (sh w : Nat) (s : State) (id : Word) (c : Config),
    ∃ t, exec (.extract off nb o sh w) s = .next t ∧
      exec (.extract off nb o sh w) { s with fin := { s.fin with id := id }, config := c } =
        .next { t with fin := { t.fin with id := id }, config := c }

/-- 42_frame_parser R165: EXTRACT changes only XRES and STATUS; the XRES, CODE and KIND it writes depend only on its operands and
FIN; so an EXTRACT after another gives what it would give alone. The spec derives the rule from R160. -/
def Obligations.ExtractsAreIndependent : Prop :=
  ∀ (off nb : Nat) (o : ByteOrder) (sh w : Nat) (s : State),
    ∃ t, exec (.extract off nb o sh w) s = .next t ∧ t = { s with xres := t.xres, status := t.status } ∧
      (∀ u : State, u.fin = s.fin → ∃ v, exec (.extract off nb o sh w) u = .next v ∧
        v.status.code = t.status.code ∧ v.status.kind = t.status.kind ∧ (t.status.code = 0 → v.xres = t.xres)) ∧
      ∀ (off' nb' : Nat) (o' : ByteOrder) (sh' w' : Nat), ∃ u v, exec (.extract off' nb' o' sh' w') s = .next u ∧
        exec (.extract off nb o sh w) u = .next v ∧
        v.status.code = t.status.code ∧ v.status.kind = t.status.kind ∧ (t.status.code = 0 → v.xres = t.xres)

/-- 42_frame_parser R164: EXTRACT and the decoder agree on every field, and EXTRACT yields the raw codes the decoder rejects.
The spec derives the rule from R160, R76, R132 and R133. -/
def Obligations.ExtractAgreesWithDecoder : Prop :=
  ∀ s : State, configValid s.config →
    (s.fin.id = s.config.idHeartbeat → s.fin.len.toNat = 3 →
      ∃ t a b c d, exec .decHb s = .next t ∧ exec (.extract 0 1 .le 0 8) s = .next a ∧
        exec (.extract 1 1 .le 0 8) s = .next b ∧ exec (.extract 2 1 .le 0 2) s = .next c ∧
        exec (.extract 2 1 .le s.config.sigShift 2) s = .next d ∧
        (t.status.code = 0 → a.xres = t.fwd ∧ b.xres = t.rev ∧ c.xres = t.dir ∧ d.xres = t.sig) ∧
        (t.status.code ≠ 0 → c.xres = 3 ∧ c.status.code = 0)) ∧
    (s.fin.id = s.config.idCommError → s.fin.len.toNat = 5 →
      ∃ t a b, exec .decCe s = .next t ∧ exec (.extract 0 1 .le 0 8) s = .next a ∧
        exec (.extract 1 4 s.config.ceOrder 0 32) s = .next b ∧
        (t.status.code = 0 → a.xres = t.sys ∧ b.xres = t.millis) ∧
        (t.status.code ≠ 0 → a.xres.toNat = finByte s 0 ∧ a.xres.setWidth 8 ∉ s.config.systemIds ∧ a.status.code = 0))

/-! ### Layout descriptors -/

/-- 30_encoding R78: Pack changes only the descriptor's bytes, and in them only the field's bits, which become the low bits of the
value. -/
def Obligations.PackWritesExactlyTheField : Prop :=
  ∀ (p : Payload) (d : Descriptor) (v : Word), descriptorValid d = true →
    (∀ k, k < 8 → (k < d.off ∨ d.off + d.nb ≤ k) → payByte (pack p d v) k = payByte p k) ∧
    ∀ m, m < 8 * d.nb →
      (assemble d.order (payBytes (pack p d v) d.off d.nb)).testBit m =
        if d.shift ≤ m ∧ m < d.shift + d.width then v.toNat.testBit (m - d.shift)
        else (assemble d.order (payBytes p d.off d.nb)).testBit m

/-- 30_encoding section 2: Unpack after Pack gives the value truncated to the field's width. -/
def Obligations.UnpackAfterPack : Prop :=
  ∀ (p : Payload) (d : Descriptor) (v : Word), descriptorValid d = true → d.width ≤ 32 →
    (unpack (pack p d v) d).toNat = v.toNat % 2 ^ d.width

/-! ### Rules of the whole machine -/

/-- 10_state R25: after reset and after every step (so after every command) FOUT.LEN is 0, 3 or 5 and the bytes of FOUT at and
beyond it are 0. The spec derives the rule from R35, R111 and R112. -/
def Obligations.FoutInvariantHolds : Prop :=
  (∀ c : Config, FoutInv (State.resetWith c)) ∧
  (∀ (i : Instr) (s t : State), FoutInv s → exec i s = .next t → FoutInv t) ∧
  ∀ s t : State, FoutInv s → step s = .next t → FoutInv t

/-- 10_state section 5: CODE takes only 0 to 7 and KIND only 0 to 4, kept by every step. -/
def Obligations.StatusStaysLegal : Prop :=
  ∀ s t : State, StatusLegal s → step s = .next t → StatusLegal t

/-- The two invariants hold in the machine's reset state. -/
def Obligations.InvariantsHoldAtReset : Prop :=
  BlockInv State.reset

/-- 10_state section 4 (the map of R27, its writes): which command may change which state, and with which code and kind. -/
def Obligations.CommandsWriteOnlyTheirState : Prop :=
  ∀ (i : Instr) (s t : State), exec i s = .next t →
    (t.fin ≠ s.fin → i = .loop) ∧
    (t.fout ≠ s.fout → i = .encHb ∨ i = .encCe) ∧
    (t.fwd ≠ s.fwd ∨ t.rev ≠ s.rev ∨ t.dir ≠ s.dir ∨ t.sig ≠ s.sig →
      (i = .decHb ∨ i = .dec) ∧ t.status.code = 0 ∧ t.status.kind = 1) ∧
    (t.sys ≠ s.sys ∨ t.millis ≠ s.millis → (i = .decCe ∨ i = .dec) ∧ t.status.code = 0 ∧ t.status.kind = 2) ∧
    (t.xres ≠ s.xres → (∃ off nb o sh w, i = .extract off nb o sh w) ∧ t.status.code = 0 ∧ t.status.kind = 0) ∧
    (t.status ≠ s.status → i ≠ .nop) ∧
    t.cmd = s.cmd ∧ t.config = s.config ∧ t.host = s.host

/-- 10_state R33: STATUS is read by no command; every command but NOP writes CODE and KIND whatever they were, sets STICKY if its
code is not OK and leaves it otherwise; NOP leaves STATUS. -/
def Obligations.StatusWrittenAndNeverRead : Prop :=
  ∀ (i : Instr) (s : State) (st : Status), ∃ t st', exec i s = .next t ∧
    exec i { s with status := st } = .next { t with status := st' } ∧
    (i = .nop → t.status = s.status) ∧
    (i ≠ .nop → st'.code = t.status.code ∧ st'.kind = t.status.kind ∧
      (t.status.code ≠ 0 → t.status.sticky = true) ∧ (t.status.code = 0 → t.status.sticky = s.status.sticky))

/-- 60_exceptions section 1 and section 4: a command that reports a code other than OK has changed STATUS only. -/
def Obligations.FailedCommandWritesStatusOnly : Prop :=
  ∀ (i : Instr) (s t : State), exec i s = .next t → i ≠ .nop → t.status.code ≠ 0 →
    t = failed s t.status.code t.status.kind

/-- 60_exceptions section 1 (the "raised by" column of R201): the codes each command can end with. -/
def Obligations.CodesOfEachCommand : Prop :=
  ∀ (i : Instr) (s t : State), exec i s = .next t →
    match i with
    | .nop => t.status.code = s.status.code
    | .encHb => t.status.code = 0
    | .encCe => t.status.code = 0
    | .decHb => t.status.code.toNat ∈ [0, 1, 2, 3]
    | .decCe => t.status.code.toNat ∈ [0, 1, 2, 3]
    | .dec => t.status.code.toNat ∈ [0, 1, 3, 4, 5]
    | .extract _ _ _ _ _ => t.status.code.toNat ∈ [0, 1, 6]
    | .loop => t.status.code = 0

/-- Performing a command again at once, with no access between, changes nothing more: the decodes by 41_decoder section 1, ENC.HB by
20_memory section 2, and ENC.CE, EXTRACT, NOP and LOOP by their pseudocode (40_encoder section 2, 42_frame_parser, 43_control), none
of which changes what the command reads. A command write is not idempotent in general: after a change to FOUT a second LOOP
does more (20_memory section 2). -/
def Obligations.CommandsAreIdempotent : Prop :=
  ∀ (i : Instr) (s : State), ∃ t, exec i s = .next t ∧ exec i t = .next t

/-- 10_state section 3: no command's result depends on a payload byte of FIN at or beyond FIN.LEN (LOOP replaces FIN without reading
it). -/
def Obligations.BytesBeyondLengthNotRead : Prop :=
  ∀ (i : Instr) (s : State) (q : Payload),
    (∀ k, k < 8 → k < s.fin.len.toNat → payByte q k = payByte s.fin.pay k) →
    ∃ t, exec i s = .next t ∧ exec i { s with fin := { s.fin with pay := q } } =
      .next (if i = .loop then t else { t with fin := { t.fin with pay := q } })

/-- 60_exceptions R207: STICKY, once 1, falls only at a host write to STATUS with bit 8 set or at reset; CODE and KIND change only at
a command other than NOP or at reset. -/
def Obligations.StatusStaysUntilOverwritten : Prop :=
  ∀ s t : State, step s = .next t →
    (s.status.sticky = true → t.status.sticky = false →
      (∃ rest, s.host.pending = .reset :: rest) ∨ ∃ w rest, WritesNext s 0x04 w rest ∧ w.getLsbD 8 = true) ∧
    (t.status.code ≠ s.status.code ∨ t.status.kind ≠ s.status.kind →
      (∃ rest, s.host.pending = .reset :: rest) ∨ ∃ w rest, WritesNext s 0x00 w rest ∧ w ≠ 0)

/-- 10_state section 5 (XRES): over the whole machine, only an EXTRACT that completes with OK, or reset, changes XRES. -/
def Obligations.OnlyExtractWritesXres : Prop :=
  ∀ s t : State, step s = .next t → t.xres ≠ s.xres →
    (∃ rest, s.host.pending = .reset :: rest) ∨
    ∃ w rest off nb o sh wd, WritesNext s 0x00 w rest ∧ decode w = .ok (.extract off nb o sh wd) ∧ t.status.code = 0

/-- 10_state section 3 (FOUT): over the whole machine, only ENC.HB, ENC.CE or reset changes FOUT; the host cannot write it. -/
def Obligations.OnlyEncodersWriteFout : Prop :=
  ∀ s t : State, step s = .next t → t.fout ≠ s.fout →
    (∃ rest, s.host.pending = .reset :: rest) ∨
    ∃ w rest, WritesNext s 0x00 w rest ∧ (decode w = .ok .encHb ∨ decode w = .ok .encCe)

/-- 10_state section 5 (CMD): over the whole machine, CMD is the last word written to it, or 0 after reset: no command, no other
access and no failure changes it, and a read of it returns it. -/
def Obligations.CmdHoldsTheLastWordWritten : Prop :=
  (∀ s t : State, step s = .next t →
    t.cmd =
      match s.host.pending with
      | [] => s.cmd
      | .reset :: _ => 0
      | .read _ _ :: _ => s.cmd
      | .write addr _ w :: _ => if addr = s.config.base then w else s.cmd) ∧
  ∀ (s : State) (rest : List HostInput), configValid s.config → ReadsNext s 0x00 rest →
    step s = .next { s with host := hostAfter s rest [s.cmd] }

/-- 30_encoding section 5: `WR` and `RD` of a register name are the 4-byte accesses at BASE plus its offset of 20_memory section 1,
no other name gives an access, `CMD` writes the command's word to CMD, `CLRSTICKY` writes 0x100 to STATUS, and a program's accesses
are those of its lines, in order. That a line is given as tokens, and that a value of more than 32 bits gives no access, is the
model's choice (log 13). -/
def Obligations.ProgramLinesAreTheirAccesses : Prop :=
  ∀ c : Config,
    (∀ p ∈ registerNames,
      (∀ v : Word, assembleLine c (.wr p.1.toList v.toNat) = some (.write (c.base + p.2) 4 v)) ∧
      (∀ v : Nat, 2 ^ 32 ≤ v → assembleLine c (.wr p.1.toList v) = none) ∧
      assembleLine c (.rd p.1.toList) = some (.read (c.base + p.2) 4)) ∧
    (∀ reg : List Char, (∀ p ∈ registerNames, reg ≠ p.1.toList) →
      (∀ v, assembleLine c (.wr reg v) = none) ∧ assembleLine c (.rd reg) = none) ∧
    (∀ (text : List Char) (ops : List AsmOperand) (x : HostInput),
      assembleLine c (.cmd text ops) = some x ↔ ∃ w, assembleCommand c text ops = some w ∧ x = .write (c.base + 0x00) 4 w) ∧
    assembleLine c .clrSticky = some (.write (c.base + 0x04) 4 0x00000100) ∧
    ∀ (lines : List AsmLine) (s t : State), s.config = c →
      (loadProgram lines s = some t ↔
        t = { s with host := { s.host with pending := t.host.pending } } ∧
          List.Forall₂ (fun line x => assembleLine c line = some x) lines t.host.pending)
end

