-- ==== Sys2Proof/Laws/Decode.lean ====
section
/-! SUPPORT. The fields of a command word as numbers (00_scope R11). -/

namespace Sys2Proof

/-- A field of a word, by division and remainder. -/
theorem bitField_eq (w : Word) (hi lo : Nat) : bitField w hi lo = w.toNat / 2 ^ lo % 2 ^ (hi + 1 - lo) := by
  simp [bitField, BitVec.extractLsb'_toNat, Nat.shiftRight_eq_div_pow]

/-- When format R accepts, and what (30_encoding R80). -/
theorem formatR_eq_ok {w : Word} {i j : Instr} : formatR w i = .ok j ↔ w.toNat / 2 ^ 4 = 0 ∧ i = j := by
  have hw := w.isLt
  unfold formatR
  rw [bitField_eq]
  split <;> simp <;> omega

end Sys2Proof
end

