-- ==== Sys2Proof/Laws/Flags.lean ====
section
/-! SUPPORT. The small lemmas of STATUS (10_state R30, R33). -/

namespace Sys2Proof.Machine

@[simp] theorem statusOk_code (k : Kind) (t : Status) : (statusOk k t).code = 0 := rfl
@[simp] theorem statusOk_kind (k : Kind) (t : Status) : (statusOk k t).kind = kindBits k := rfl
@[simp] theorem statusOk_sticky (k : Kind) (t : Status) : (statusOk k t).sticky = t.sticky := rfl
@[simp] theorem statusRaised_code (c : StatusCode) (k : Kind) : (statusRaised c k).code = codeBits c := rfl
@[simp] theorem statusRaised_kind (c : StatusCode) (k : Kind) : (statusRaised c k).kind = kindBits k := rfl
@[simp] theorem statusRaised_sticky (c : StatusCode) (k : Kind) : (statusRaised c k).sticky = true := rfl

/-- A host write to STATUS leaves CODE and KIND. -/
@[simp] theorem statusWritten_code (w : Word) (t : Status) : (statusWritten w t).code = t.code := by
  unfold statusWritten; split <;> rfl

@[simp] theorem statusWritten_kind (w : Word) (t : Status) : (statusWritten w t).kind = t.kind := by
  unfold statusWritten; split <;> rfl

/-- A host write to STATUS leaves STICKY unless bit 8 is set, and then clears it. -/
theorem statusWritten_sticky (w : Word) (t : Status) :
    (statusWritten w t).sticky = (if w.getLsbD 8 then false else t.sticky) := by
  unfold statusWritten; split <;> rfl

theorem codeBits_le (c : StatusCode) : (codeBits c).toNat ≤ 7 := by cases c <;> decide

theorem kindBits_le (k : Kind) : (kindBits k).toNat ≤ 4 := by cases k <;> decide

theorem codeBits_inj {c d : StatusCode} (h : codeBits c = codeBits d) : c = d := by
  revert h; cases c <;> cases d <;> decide

end Sys2Proof.Machine
end

