-- ==== Sys2Proof/Laws/Operands.lean ====
section
/-! SUPPORT. Byte assembly and its inverse (00_scope R14), and the payload operations. -/

namespace Sys2Proof.Machine

@[simp] theorem leBytes_length (v n : Nat) : (leBytes v n).length = n := by
  induction n generalizing v with
  | zero => rfl
  | succ n ih => simp [leBytes, ih]

@[simp] theorem splitBytes_length (o : ByteOrder) (v n : Nat) : (splitBytes o v n).length = n := by
  cases o <;> simp [splitBytes]

theorem leValue_lt (bs : List Byte) : leValue bs < 256 ^ bs.length := by
  induction bs with
  | nil => simp [leValue]
  | cons b bs ih =>
    have := b.isLt
    simp only [leValue, List.length_cons, Nat.pow_succ]
    omega

/-- Assembling the bytes of a value gives the value, modulo its width. -/
theorem leValue_leBytes (v n : Nat) : leValue (leBytes v n) = v % 256 ^ n := by
  induction n generalizing v with
  | zero => simp [leBytes, leValue, Nat.mod_one]
  | succ n ih =>
    simp only [leBytes, leValue, ih, BitVec.toNat_ofNat]
    have h : v % 256 ^ (n + 1) = v % 256 + 256 * (v / 256 % 256 ^ n) := by
      rw [Nat.pow_succ, Nat.mul_comm, Nat.mod_mul]
    omega

/-- Splitting an assembled value gives its bytes back. -/
theorem leBytes_leValue (bs : List Byte) : leBytes (leValue bs) bs.length = bs := by
  induction bs with
  | nil => rfl
  | cons b bs ih =>
    have hb := b.isLt
    have h1 : BitVec.ofNat 8 (leValue (b :: bs)) = b := by
      apply BitVec.eq_of_toNat_eq; simp only [leValue, BitVec.toNat_ofNat]; omega
    have h2 : leValue (b :: bs) / 256 = leValue bs := by simp only [leValue]; omega
    simp only [List.length_cons, leBytes, h1, h2, ih]

/-- `bytesORDER` then `ORDER` (00_scope R14): the value, modulo its width. -/
theorem assemble_splitBytes (o : ByteOrder) (v n : Nat) : assemble o (splitBytes o v n) = v % 256 ^ n := by
  cases o <;> simp [assemble, splitBytes, leValue_leBytes]

/-- `ORDER` then `bytesORDER` (00_scope R14): the bytes. -/
theorem splitBytes_assemble (o : ByteOrder) (bs : List Byte) : splitBytes o (assemble o bs) bs.length = bs := by
  cases o with
  | le => exact leBytes_leValue bs
  | be =>
    have h := leBytes_leValue bs.reverse
    rw [List.length_reverse] at h
    simp [assemble, splitBytes, h]

@[simp] theorem payBytes_length (p : Payload) (off nb : Nat) : (payBytes p off nb).length = nb := by simp [payBytes]

@[simp] theorem payByte_zeroPayload (k : Nat) : payByte zeroPayload k = 0 := by
  unfold payByte zeroPayload
  by_cases h : k < 8 <;> simp [h]

/-- What a replaced payload holds: the new bytes inside their range, the old ones outside it. -/
theorem payByte_putBytes (p : Payload) (off : Nat) (bs : List Byte) (k : Nat) (hk : k < 8) :
    payByte (putBytes p off bs) k = if off ≤ k ∧ k < off + bs.length then bs.getD (k - off) 0 else payByte p k := by
  unfold payByte putBytes
  simp [hk]

/-- Two payloads with the same eight bytes are equal. -/
theorem payload_ext {p q : Payload} (h : ∀ k, k < 8 → payByte p k = payByte q k) : p = q := by
  apply Vector.ext
  intro k hk
  have := h k hk
  simpa [payByte, hk] using this

/-- Masking with `mask w` is reduction modulo `2 ^ w` (00_scope R12). -/
theorem and_mask (v w : Nat) : v &&& mask w = v % 2 ^ w := by
  simp [mask, Nat.and_two_pow_sub_one_eq_mod]

/-- The bit field of a raw value as a number: at most 32 bits of it are kept. -/
theorem fieldOf_toNat (raw sh w : Nat) (hw : w ≤ 32) : (fieldOf raw sh w).toNat = raw / 2 ^ sh % 2 ^ w := by
  simp only [fieldOf, and_mask, Nat.shiftRight_eq_div_pow, BitVec.toNat_ofNat]
  refine Nat.mod_eq_of_lt (Nat.lt_of_lt_of_le (Nat.mod_lt _ (Nat.two_pow_pos w)) ?_)
  exact Nat.pow_le_pow_right (by decide) hw

/-! ### The bits of assembled, packed and windowed bytes -/

/-- Bit `m` of little-endian bytes is bit `m % 8` of byte `m / 8` (00_scope R14). -/
theorem leValue_testBit (bs : List Byte) (m : Nat) : (leValue bs).testBit m = (bs.getD (m / 8) 0).getLsbD (m % 8) := by
  induction bs generalizing m with
  | nil => simp [leValue]
  | cons b bs ih =>
    have hb := b.isLt
    have e : leValue (b :: bs) = 2 ^ 8 * leValue bs + b.toNat := by simp only [leValue]; omega
    rw [e, Nat.testBit_two_pow_mul_add _ hb]
    split
    · rename_i h
      rw [Nat.div_eq_of_lt h, Nat.mod_eq_of_lt h]; rfl
    · rename_i h
      rw [ih, show m / 8 = (m - 8) / 8 + 1 by omega, show m % 8 = (m - 8) % 8 by omega]; rfl

/-- Bit `m` of the bytes of a descriptor, in either order. -/
theorem assemble_testBit (o : ByteOrder) (p : Payload) (off nb m : Nat) (hm : m < 8 * nb) :
    (assemble o (payBytes p off nb)).testBit m =
      (payByte p (match o with | .le => off + m / 8 | .be => off + (nb - 1) - m / 8)).getLsbD (m % 8) := by
  have hq : m / 8 < nb := by omega
  cases o with
  | le => simp [assemble, leValue_testBit, payBytes, List.getD, hq]
  | be =>
    simp only [assemble, leValue_testBit, payBytes]
    rw [List.getD, List.getElem?_reverse (by simpa using hq)]
    simp [show nb - 1 - m / 8 < nb by omega, show off + (nb - 1 - m / 8) = off + (nb - 1) - m / 8 by omega]

/-- Bit `8 * i + j` of a value is bit `j` of byte `i` of its little-endian bytes. -/
theorem leBytes_getD (v n i j : Nat) (hi : i < n) (hj : j < 8) :
    ((leBytes v n).getD i 0).getLsbD j = v.testBit (8 * i + j) := by
  induction n generalizing v i with
  | zero => omega
  | succ n ih =>
    cases i with
    | zero => simp [leBytes, hj, BitVec.getLsbD_ofNat, -BitVec.getLsbD_eq_getElem]
    | succ i =>
      simp only [leBytes, List.getD_cons_succ, ih (v / 256) i (by omega)]
      rw [show 256 = 2 ^ 8 from rfl, ← Nat.shiftRight_eq_div_pow, Nat.testBit_shiftRight]; congr 1; omega

/-- The bytes put into a payload are read back. -/
theorem payBytes_putBytes (p : Payload) (off : Nat) (bs : List Byte) (h : off + bs.length ≤ 8) :
    payBytes (putBytes p off bs) off bs.length = bs := by
  apply List.ext_getElem
  · simp
  · intro i h1 h2
    simp only [payBytes, List.getElem_map, List.getElem_range]
    rw [payByte_putBytes _ _ _ _ (by omega), if_pos (by omega)]
    simp [List.getD, h2]

/-- Unpack, bit by bit (30_encoding R77). -/
theorem unpack_testBit (p : Payload) (d : Descriptor) (j : Nat) :
    (unpack p d).getLsbD j =
      (decide (j < 32) && decide (j < d.width) && (assemble d.order (payBytes p d.off d.nb)).testBit (d.shift + j)) := by
  simp only [unpack, fieldOf, and_mask, BitVec.getLsbD_ofNat, Nat.testBit_mod_two_pow, Nat.testBit_shiftRight]
  rw [Bool.and_assoc]

theorem append_toNat {m n : Nat} (a : BitVec m) (b : BitVec n) : (a ++ b).toNat = a.toNat * 2 ^ n + b.toNat := by
  rw [BitVec.toNat_append, ← Nat.shiftLeft_add_eq_or_of_lt b.isLt, Nat.shiftLeft_eq]

/-- A payload register as a number (20_memory R55). -/
theorem lanesOf_toNat (p : Payload) (off : Nat) :
    (lanesOf p off).toNat = (payByte p off).toNat + 2 ^ 8 * (payByte p (off + 1)).toNat + 2 ^ 16 * (payByte p (off + 2)).toNat +
      2 ^ 24 * (payByte p (off + 3)).toNat := by
  simp only [lanesOf, append_toNat]; omega

end Sys2Proof.Machine
end

