-- ==== Sys2Proof/Laws/State.lean ====
section
/-! SUPPORT. What each update of the state does to each field, one lemma per field per update, true by rfl. -/

namespace Sys2Proof.Machine

variable (s : State)

/-! ### `setFin` -/

@[simp] theorem setFin_fin (f : Frame) : (setFin f s).fin = f := rfl
@[simp] theorem setFin_fout (f : Frame) : (setFin f s).fout = s.fout := rfl
@[simp] theorem setFin_fwd (f : Frame) : (setFin f s).fwd = s.fwd := rfl
@[simp] theorem setFin_rev (f : Frame) : (setFin f s).rev = s.rev := rfl
@[simp] theorem setFin_dir (f : Frame) : (setFin f s).dir = s.dir := rfl
@[simp] theorem setFin_sig (f : Frame) : (setFin f s).sig = s.sig := rfl
@[simp] theorem setFin_sys (f : Frame) : (setFin f s).sys = s.sys := rfl
@[simp] theorem setFin_millis (f : Frame) : (setFin f s).millis = s.millis := rfl
@[simp] theorem setFin_xres (f : Frame) : (setFin f s).xres = s.xres := rfl
@[simp] theorem setFin_cmd (f : Frame) : (setFin f s).cmd = s.cmd := rfl
@[simp] theorem setFin_status (f : Frame) : (setFin f s).status = s.status := rfl
@[simp] theorem setFin_config (f : Frame) : (setFin f s).config = s.config := rfl
@[simp] theorem setFin_host (f : Frame) : (setFin f s).host = s.host := rfl

/-! ### `setFout` -/

@[simp] theorem setFout_fin (f : Frame) : (setFout f s).fin = s.fin := rfl
@[simp] theorem setFout_fout (f : Frame) : (setFout f s).fout = f := rfl
@[simp] theorem setFout_fwd (f : Frame) : (setFout f s).fwd = s.fwd := rfl
@[simp] theorem setFout_rev (f : Frame) : (setFout f s).rev = s.rev := rfl
@[simp] theorem setFout_dir (f : Frame) : (setFout f s).dir = s.dir := rfl
@[simp] theorem setFout_sig (f : Frame) : (setFout f s).sig = s.sig := rfl
@[simp] theorem setFout_sys (f : Frame) : (setFout f s).sys = s.sys := rfl
@[simp] theorem setFout_millis (f : Frame) : (setFout f s).millis = s.millis := rfl
@[simp] theorem setFout_xres (f : Frame) : (setFout f s).xres = s.xres := rfl
@[simp] theorem setFout_cmd (f : Frame) : (setFout f s).cmd = s.cmd := rfl
@[simp] theorem setFout_status (f : Frame) : (setFout f s).status = s.status := rfl
@[simp] theorem setFout_config (f : Frame) : (setFout f s).config = s.config := rfl
@[simp] theorem setFout_host (f : Frame) : (setFout f s).host = s.host := rfl

/-! ### `setHeartbeat` -/

@[simp] theorem setHeartbeat_fin (f r d g : Word) : (setHeartbeat f r d g s).fin = s.fin := rfl
@[simp] theorem setHeartbeat_fout (f r d g : Word) : (setHeartbeat f r d g s).fout = s.fout := rfl
@[simp] theorem setHeartbeat_fwd (f r d g : Word) : (setHeartbeat f r d g s).fwd = f := rfl
@[simp] theorem setHeartbeat_rev (f r d g : Word) : (setHeartbeat f r d g s).rev = r := rfl
@[simp] theorem setHeartbeat_dir (f r d g : Word) : (setHeartbeat f r d g s).dir = d := rfl
@[simp] theorem setHeartbeat_sig (f r d g : Word) : (setHeartbeat f r d g s).sig = g := rfl
@[simp] theorem setHeartbeat_sys (f r d g : Word) : (setHeartbeat f r d g s).sys = s.sys := rfl
@[simp] theorem setHeartbeat_millis (f r d g : Word) : (setHeartbeat f r d g s).millis = s.millis := rfl
@[simp] theorem setHeartbeat_xres (f r d g : Word) : (setHeartbeat f r d g s).xres = s.xres := rfl
@[simp] theorem setHeartbeat_cmd (f r d g : Word) : (setHeartbeat f r d g s).cmd = s.cmd := rfl
@[simp] theorem setHeartbeat_status (f r d g : Word) : (setHeartbeat f r d g s).status = s.status := rfl
@[simp] theorem setHeartbeat_config (f r d g : Word) : (setHeartbeat f r d g s).config = s.config := rfl
@[simp] theorem setHeartbeat_host (f r d g : Word) : (setHeartbeat f r d g s).host = s.host := rfl

/-! ### `setCommError` -/

@[simp] theorem setCommError_fin (y m : Word) : (setCommError y m s).fin = s.fin := rfl
@[simp] theorem setCommError_fout (y m : Word) : (setCommError y m s).fout = s.fout := rfl
@[simp] theorem setCommError_fwd (y m : Word) : (setCommError y m s).fwd = s.fwd := rfl
@[simp] theorem setCommError_rev (y m : Word) : (setCommError y m s).rev = s.rev := rfl
@[simp] theorem setCommError_dir (y m : Word) : (setCommError y m s).dir = s.dir := rfl
@[simp] theorem setCommError_sig (y m : Word) : (setCommError y m s).sig = s.sig := rfl
@[simp] theorem setCommError_sys (y m : Word) : (setCommError y m s).sys = y := rfl
@[simp] theorem setCommError_millis (y m : Word) : (setCommError y m s).millis = m := rfl
@[simp] theorem setCommError_xres (y m : Word) : (setCommError y m s).xres = s.xres := rfl
@[simp] theorem setCommError_cmd (y m : Word) : (setCommError y m s).cmd = s.cmd := rfl
@[simp] theorem setCommError_status (y m : Word) : (setCommError y m s).status = s.status := rfl
@[simp] theorem setCommError_config (y m : Word) : (setCommError y m s).config = s.config := rfl
@[simp] theorem setCommError_host (y m : Word) : (setCommError y m s).host = s.host := rfl

/-! ### `setXres` -/

@[simp] theorem setXres_fin (x : Word) : (setXres x s).fin = s.fin := rfl
@[simp] theorem setXres_fout (x : Word) : (setXres x s).fout = s.fout := rfl
@[simp] theorem setXres_fwd (x : Word) : (setXres x s).fwd = s.fwd := rfl
@[simp] theorem setXres_rev (x : Word) : (setXres x s).rev = s.rev := rfl
@[simp] theorem setXres_dir (x : Word) : (setXres x s).dir = s.dir := rfl
@[simp] theorem setXres_sig (x : Word) : (setXres x s).sig = s.sig := rfl
@[simp] theorem setXres_sys (x : Word) : (setXres x s).sys = s.sys := rfl
@[simp] theorem setXres_millis (x : Word) : (setXres x s).millis = s.millis := rfl
@[simp] theorem setXres_xres (x : Word) : (setXres x s).xres = x := rfl
@[simp] theorem setXres_cmd (x : Word) : (setXres x s).cmd = s.cmd := rfl
@[simp] theorem setXres_status (x : Word) : (setXres x s).status = s.status := rfl
@[simp] theorem setXres_config (x : Word) : (setXres x s).config = s.config := rfl
@[simp] theorem setXres_host (x : Word) : (setXres x s).host = s.host := rfl

/-! ### `setCmd` -/

@[simp] theorem setCmd_fin (w : Word) : (setCmd w s).fin = s.fin := rfl
@[simp] theorem setCmd_fout (w : Word) : (setCmd w s).fout = s.fout := rfl
@[simp] theorem setCmd_fwd (w : Word) : (setCmd w s).fwd = s.fwd := rfl
@[simp] theorem setCmd_rev (w : Word) : (setCmd w s).rev = s.rev := rfl
@[simp] theorem setCmd_dir (w : Word) : (setCmd w s).dir = s.dir := rfl
@[simp] theorem setCmd_sig (w : Word) : (setCmd w s).sig = s.sig := rfl
@[simp] theorem setCmd_sys (w : Word) : (setCmd w s).sys = s.sys := rfl
@[simp] theorem setCmd_millis (w : Word) : (setCmd w s).millis = s.millis := rfl
@[simp] theorem setCmd_xres (w : Word) : (setCmd w s).xres = s.xres := rfl
@[simp] theorem setCmd_cmd (w : Word) : (setCmd w s).cmd = w := rfl
@[simp] theorem setCmd_status (w : Word) : (setCmd w s).status = s.status := rfl
@[simp] theorem setCmd_config (w : Word) : (setCmd w s).config = s.config := rfl
@[simp] theorem setCmd_host (w : Word) : (setCmd w s).host = s.host := rfl

/-! ### `setStatus` -/

@[simp] theorem setStatus_fin (t : Status) : (setStatus t s).fin = s.fin := rfl
@[simp] theorem setStatus_fout (t : Status) : (setStatus t s).fout = s.fout := rfl
@[simp] theorem setStatus_fwd (t : Status) : (setStatus t s).fwd = s.fwd := rfl
@[simp] theorem setStatus_rev (t : Status) : (setStatus t s).rev = s.rev := rfl
@[simp] theorem setStatus_dir (t : Status) : (setStatus t s).dir = s.dir := rfl
@[simp] theorem setStatus_sig (t : Status) : (setStatus t s).sig = s.sig := rfl
@[simp] theorem setStatus_sys (t : Status) : (setStatus t s).sys = s.sys := rfl
@[simp] theorem setStatus_millis (t : Status) : (setStatus t s).millis = s.millis := rfl
@[simp] theorem setStatus_xres (t : Status) : (setStatus t s).xres = s.xres := rfl
@[simp] theorem setStatus_cmd (t : Status) : (setStatus t s).cmd = s.cmd := rfl
@[simp] theorem setStatus_status (t : Status) : (setStatus t s).status = t := rfl
@[simp] theorem setStatus_config (t : Status) : (setStatus t s).config = s.config := rfl
@[simp] theorem setStatus_host (t : Status) : (setStatus t s).host = s.host := rfl

/-! ### `endOk` -/

@[simp] theorem endOk_fin (k : Kind) : (endOk k s).fin = s.fin := rfl
@[simp] theorem endOk_fout (k : Kind) : (endOk k s).fout = s.fout := rfl
@[simp] theorem endOk_fwd (k : Kind) : (endOk k s).fwd = s.fwd := rfl
@[simp] theorem endOk_rev (k : Kind) : (endOk k s).rev = s.rev := rfl
@[simp] theorem endOk_dir (k : Kind) : (endOk k s).dir = s.dir := rfl
@[simp] theorem endOk_sig (k : Kind) : (endOk k s).sig = s.sig := rfl
@[simp] theorem endOk_sys (k : Kind) : (endOk k s).sys = s.sys := rfl
@[simp] theorem endOk_millis (k : Kind) : (endOk k s).millis = s.millis := rfl
@[simp] theorem endOk_xres (k : Kind) : (endOk k s).xres = s.xres := rfl
@[simp] theorem endOk_cmd (k : Kind) : (endOk k s).cmd = s.cmd := rfl
@[simp] theorem endOk_status (k : Kind) : (endOk k s).status = statusOk k s.status := rfl
@[simp] theorem endOk_config (k : Kind) : (endOk k s).config = s.config := rfl
@[simp] theorem endOk_host (k : Kind) : (endOk k s).host = s.host := rfl

/-! ### `raiseCode` -/

@[simp] theorem raiseCode_fin (c : StatusCode) (k : Kind) : (raiseCode c k s).fin = s.fin := rfl
@[simp] theorem raiseCode_fout (c : StatusCode) (k : Kind) : (raiseCode c k s).fout = s.fout := rfl
@[simp] theorem raiseCode_fwd (c : StatusCode) (k : Kind) : (raiseCode c k s).fwd = s.fwd := rfl
@[simp] theorem raiseCode_rev (c : StatusCode) (k : Kind) : (raiseCode c k s).rev = s.rev := rfl
@[simp] theorem raiseCode_dir (c : StatusCode) (k : Kind) : (raiseCode c k s).dir = s.dir := rfl
@[simp] theorem raiseCode_sig (c : StatusCode) (k : Kind) : (raiseCode c k s).sig = s.sig := rfl
@[simp] theorem raiseCode_sys (c : StatusCode) (k : Kind) : (raiseCode c k s).sys = s.sys := rfl
@[simp] theorem raiseCode_millis (c : StatusCode) (k : Kind) : (raiseCode c k s).millis = s.millis := rfl
@[simp] theorem raiseCode_xres (c : StatusCode) (k : Kind) : (raiseCode c k s).xres = s.xres := rfl
@[simp] theorem raiseCode_cmd (c : StatusCode) (k : Kind) : (raiseCode c k s).cmd = s.cmd := rfl
@[simp] theorem raiseCode_status (c : StatusCode) (k : Kind) : (raiseCode c k s).status = statusRaised c k := rfl
@[simp] theorem raiseCode_config (c : StatusCode) (k : Kind) : (raiseCode c k s).config = s.config := rfl
@[simp] theorem raiseCode_host (c : StatusCode) (k : Kind) : (raiseCode c k s).host = s.host := rfl

/-! ### `writeStatus` -/

@[simp] theorem writeStatus_fin (w : Word) : (writeStatus w s).fin = s.fin := rfl
@[simp] theorem writeStatus_fout (w : Word) : (writeStatus w s).fout = s.fout := rfl
@[simp] theorem writeStatus_fwd (w : Word) : (writeStatus w s).fwd = s.fwd := rfl
@[simp] theorem writeStatus_rev (w : Word) : (writeStatus w s).rev = s.rev := rfl
@[simp] theorem writeStatus_dir (w : Word) : (writeStatus w s).dir = s.dir := rfl
@[simp] theorem writeStatus_sig (w : Word) : (writeStatus w s).sig = s.sig := rfl
@[simp] theorem writeStatus_sys (w : Word) : (writeStatus w s).sys = s.sys := rfl
@[simp] theorem writeStatus_millis (w : Word) : (writeStatus w s).millis = s.millis := rfl
@[simp] theorem writeStatus_xres (w : Word) : (writeStatus w s).xres = s.xres := rfl
@[simp] theorem writeStatus_cmd (w : Word) : (writeStatus w s).cmd = s.cmd := rfl
@[simp] theorem writeStatus_status (w : Word) : (writeStatus w s).status = statusWritten w s.status := rfl
@[simp] theorem writeStatus_config (w : Word) : (writeStatus w s).config = s.config := rfl
@[simp] theorem writeStatus_host (w : Word) : (writeStatus w s).host = s.host := rfl

/-! ### `setPending` -/

@[simp] theorem setPending_fin (l : List HostInput) : (setPending l s).fin = s.fin := rfl
@[simp] theorem setPending_fout (l : List HostInput) : (setPending l s).fout = s.fout := rfl
@[simp] theorem setPending_fwd (l : List HostInput) : (setPending l s).fwd = s.fwd := rfl
@[simp] theorem setPending_rev (l : List HostInput) : (setPending l s).rev = s.rev := rfl
@[simp] theorem setPending_dir (l : List HostInput) : (setPending l s).dir = s.dir := rfl
@[simp] theorem setPending_sig (l : List HostInput) : (setPending l s).sig = s.sig := rfl
@[simp] theorem setPending_sys (l : List HostInput) : (setPending l s).sys = s.sys := rfl
@[simp] theorem setPending_millis (l : List HostInput) : (setPending l s).millis = s.millis := rfl
@[simp] theorem setPending_xres (l : List HostInput) : (setPending l s).xres = s.xres := rfl
@[simp] theorem setPending_cmd (l : List HostInput) : (setPending l s).cmd = s.cmd := rfl
@[simp] theorem setPending_status (l : List HostInput) : (setPending l s).status = s.status := rfl
@[simp] theorem setPending_config (l : List HostInput) : (setPending l s).config = s.config := rfl
@[simp] theorem setPending_host (l : List HostInput) : (setPending l s).host = { s.host with pending := l } := rfl

/-! ### `accessDone` -/

@[simp] theorem accessDone_fin (l : List HostInput) : (accessDone l s).fin = s.fin := rfl
@[simp] theorem accessDone_fout (l : List HostInput) : (accessDone l s).fout = s.fout := rfl
@[simp] theorem accessDone_fwd (l : List HostInput) : (accessDone l s).fwd = s.fwd := rfl
@[simp] theorem accessDone_rev (l : List HostInput) : (accessDone l s).rev = s.rev := rfl
@[simp] theorem accessDone_dir (l : List HostInput) : (accessDone l s).dir = s.dir := rfl
@[simp] theorem accessDone_sig (l : List HostInput) : (accessDone l s).sig = s.sig := rfl
@[simp] theorem accessDone_sys (l : List HostInput) : (accessDone l s).sys = s.sys := rfl
@[simp] theorem accessDone_millis (l : List HostInput) : (accessDone l s).millis = s.millis := rfl
@[simp] theorem accessDone_xres (l : List HostInput) : (accessDone l s).xres = s.xres := rfl
@[simp] theorem accessDone_cmd (l : List HostInput) : (accessDone l s).cmd = s.cmd := rfl
@[simp] theorem accessDone_status (l : List HostInput) : (accessDone l s).status = s.status := rfl
@[simp] theorem accessDone_config (l : List HostInput) : (accessDone l s).config = s.config := rfl
@[simp] theorem accessDone_host (l : List HostInput) : (accessDone l s).host = { s.host with pending := l, accessIndex := s.host.accessIndex + 1 } := rfl

/-! ### `returnWord` -/

@[simp] theorem returnWord_fin (v : Word) : (returnWord v s).fin = s.fin := rfl
@[simp] theorem returnWord_fout (v : Word) : (returnWord v s).fout = s.fout := rfl
@[simp] theorem returnWord_fwd (v : Word) : (returnWord v s).fwd = s.fwd := rfl
@[simp] theorem returnWord_rev (v : Word) : (returnWord v s).rev = s.rev := rfl
@[simp] theorem returnWord_dir (v : Word) : (returnWord v s).dir = s.dir := rfl
@[simp] theorem returnWord_sig (v : Word) : (returnWord v s).sig = s.sig := rfl
@[simp] theorem returnWord_sys (v : Word) : (returnWord v s).sys = s.sys := rfl
@[simp] theorem returnWord_millis (v : Word) : (returnWord v s).millis = s.millis := rfl
@[simp] theorem returnWord_xres (v : Word) : (returnWord v s).xres = s.xres := rfl
@[simp] theorem returnWord_cmd (v : Word) : (returnWord v s).cmd = s.cmd := rfl
@[simp] theorem returnWord_status (v : Word) : (returnWord v s).status = s.status := rfl
@[simp] theorem returnWord_config (v : Word) : (returnWord v s).config = s.config := rfl
@[simp] theorem returnWord_host (v : Word) : (returnWord v s).host = { s.host with reads := s.host.reads ++ [v] } := rfl

/-! ### `resetBlock` -/

@[simp] theorem resetBlock_fin : (resetBlock s).fin = Frame.zero := rfl
@[simp] theorem resetBlock_fout : (resetBlock s).fout = Frame.zero := rfl
@[simp] theorem resetBlock_fwd : (resetBlock s).fwd = 0 := rfl
@[simp] theorem resetBlock_rev : (resetBlock s).rev = 0 := rfl
@[simp] theorem resetBlock_dir : (resetBlock s).dir = 0 := rfl
@[simp] theorem resetBlock_sig : (resetBlock s).sig = 0 := rfl
@[simp] theorem resetBlock_sys : (resetBlock s).sys = 0 := rfl
@[simp] theorem resetBlock_millis : (resetBlock s).millis = 0 := rfl
@[simp] theorem resetBlock_xres : (resetBlock s).xres = 0 := rfl
@[simp] theorem resetBlock_cmd : (resetBlock s).cmd = 0 := rfl
@[simp] theorem resetBlock_status : (resetBlock s).status = { code := 0, kind := 0, sticky := false } := rfl
@[simp] theorem resetBlock_config : (resetBlock s).config = s.config := rfl
@[simp] theorem resetBlock_host : (resetBlock s).host = s.host := rfl

end Sys2Proof.Machine
end

