-- ==== Sys2Proof/Laws/Ops.lean ====
section
/-! SUPPORT. What each shared operation can do, said once: an access's offset, the register map, the host's next input, and the
field checks the decode commands share. -/

namespace Sys2Proof.Machine

/-! ### Accesses and the register map -/

/-- When an access has an offset, and which. -/
theorem accessOffset_eq_some {c : Config} {addr bytes off : Nat} :
    accessOffset c addr bytes = some off ↔
      bytes = 4 ∧ addr = c.base + off ∧ off < windowSize ∧ off % 4 = 0 := by
  unfold accessOffset
  constructor
  · intro h
    split at h
    · simp only [Option.some.injEq] at h; omega
    · exact absurd h (by simp)
  · rintro ⟨h1, h2, h3, h4⟩
    rw [if_pos (by omega)]
    simp only [Option.some.injEq]; omega

@[simp] theorem accessOffset_base (c : Config) (off : Nat) (h : off < 256) (h4 : off % 4 = 0) :
    accessOffset c (c.base + off) 4 = some off :=
  accessOffset_eq_some.mpr ⟨rfl, rfl, h, h4⟩

/-- The register map and the offsets agree (20_memory R51). -/
@[simp] theorem regAt_offsetOf (r : WindowReg) : regAt (offsetOf r) = some r := by cases r <;> rfl

theorem regAt_eq_some {off : Nat} {r : WindowReg} (h : regAt off = some r) : off = offsetOf r := by
  unfold regAt at h
  split at h <;> simp at h <;> subst h <;> rfl

/-- Offsets from 0x44 up are unmapped (20_memory R53). -/
theorem regAt_unmapped {off : Nat} (h : 0x44 ≤ off) : regAt off = none := by
  cases hr : regAt off with
  | none => rfl
  | some r => have := regAt_eq_some hr; cases r <;> simp only [offsetOf] at this <;> omega

theorem offsetOf_lt (r : WindowReg) : offsetOf r < 256 ∧ offsetOf r % 4 = 0 := by cases r <;> decide

/-! ### Reads and writes of the window change what they name -/

/-- A host write to any register leaves FOUT, XRES, the parameters and the host's side. -/
theorem writeReg_frame (r : WindowReg) (w : Word) (s : State) :
    (writeReg r w s).fout = s.fout ∧ (writeReg r w s).xres = s.xres ∧ (writeReg r w s).config = s.config ∧
      (writeReg r w s).host = s.host := by
  cases r <;> exact ⟨rfl, rfl, rfl, rfl⟩

/-- A host write to any register but STATUS leaves STATUS, and one to STATUS changes STICKY alone (20_memory R54). -/
theorem writeReg_status (r : WindowReg) (w : Word) (s : State) :
    (writeReg r w s).status = if r = .status then statusWritten w s.status else s.status := by
  cases r <;> rfl

/-! ### The host's next input -/

/-- A configuration that breaks 00_scope R8 is refused. -/
theorem nextAction_invalid {s : State} (h : ¬ configValid s.config) : nextAction s = .refuse .invalidConfiguration := by
  unfold nextAction; rw [if_neg h]

/-- Everything the host's next input can ask of a block whose configuration is valid. -/
theorem nextAction_cases {s : State} (hc : configValid s.config) :
    nextAction s = .refuse .undefinedAccess ∨
    (s.host.pending = [] ∧ nextAction s = .done s) ∨
    (∃ rest, s.host.pending = .reset :: rest ∧ nextAction s = .done (resetBlock (setPending rest s))) ∨
    (∃ off rest, s.host.pending = .read (s.config.base + off) 4 :: rest ∧ off < windowSize ∧ off % 4 = 0 ∧
      nextAction s = .done (returnWord (readOffset off s) (accessDone rest s))) ∨
    (∃ off w rest, s.host.pending = .write (s.config.base + off) 4 w :: rest ∧ off < windowSize ∧ off % 4 = 0 ∧
      regAt off ≠ some .cmd ∧ nextAction s = .done (writeOffset off w (accessDone rest s))) ∨
    (∃ w rest, s.host.pending = .write s.config.base 4 w :: rest ∧
      nextAction s = .command w (setCmd w (accessDone rest s))) := by
  unfold nextAction
  rw [if_pos hc]
  cases hp : s.host.pending with
  | nil => simp
  | cons x rest =>
    cases x with
    | reset => simp
    | read addr bytes =>
      cases ha : accessOffset s.config addr bytes with
      | none => simp [ha]
      | some off =>
        obtain ⟨rfl, rfl, hlt, h4⟩ := accessOffset_eq_some.mp ha
        refine .inr (.inr (.inr (.inl ⟨off, rest, rfl, hlt, h4, ?_⟩)))
        simp only [ha]
    | write addr bytes w =>
      cases ha : accessOffset s.config addr bytes with
      | none => simp [ha]
      | some off =>
        obtain ⟨rfl, rfl, hlt, h4⟩ := accessOffset_eq_some.mp ha
        by_cases hr : regAt off = some .cmd
        · have h0 : off = 0 := regAt_eq_some hr
          subst h0
          refine .inr (.inr (.inr (.inr (.inr ⟨w, rest, rfl, ?_⟩))))
          simp only [ha]; rfl
        · refine .inr (.inr (.inr (.inr (.inl ⟨off, w, rest, rfl, hlt, h4, hr, ?_⟩))))
          simp only [ha, hostWrite, if_neg hr]

/-- The next input is a read of a window offset. -/
theorem nextAction_read {s : State} (hc : configValid s.config) {off : Nat} (hlt : off < 256) (h4 : off % 4 = 0)
    {rest : List HostInput} (hp : s.host.pending = .read (s.config.base + off) 4 :: rest) :
    nextAction s = .done (returnWord (readOffset off s) (accessDone rest s)) := by
  simp only [nextAction, if_pos hc, hp, accessOffset_base _ _ hlt h4]

/-- The next input is a write to a window offset. -/
theorem nextAction_write {s : State} (hc : configValid s.config) {off : Nat} (hlt : off < 256) (h4 : off % 4 = 0)
    {w : Word} {rest : List HostInput} (hp : s.host.pending = .write (s.config.base + off) 4 w :: rest) :
    nextAction s = hostWrite off w (accessDone rest s) := by
  simp only [nextAction, if_pos hc, hp, accessOffset_base _ _ hlt h4]

/-! ### The field checks of the decode commands -/

/-- What the heartbeat field check can do (41_decoder R132). -/
theorem decodeHeartbeatFields_cases (k : Kind) (s : State) :
    decodeHeartbeatFields k s = raiseCode .badField k s ∨
      ∃ f r d g, decodeHeartbeatFields k s = endOk .heartbeat (setHeartbeat f r d g s) := by
  unfold decodeHeartbeatFields
  dsimp only
  split
  · exact .inl rfl
  · exact .inr ⟨_, _, _, _, rfl⟩

/-- What the comm-error field check can do (41_decoder R133). -/
theorem decodeCommErrorFields_cases (k : Kind) (s : State) :
    decodeCommErrorFields k s = raiseCode .badField k s ∨
      ∃ y m, decodeCommErrorFields k s = endOk .commError (setCommError y m s) := by
  unfold decodeCommErrorFields
  dsimp only
  split
  · exact .inr ⟨_, _, rfl⟩
  · exact .inl rfl

end Sys2Proof.Machine
end

