-- ==== Sys2Proof/Laws/Exec.lean ====
section
/-! SUPPORT. What performing a command can do, said once: the inversion lemma of `exec`, from which invariants over all commands
follow by cases. -/

namespace Sys2Proof.Machine

/-- Everything a command can do to the state `s`, as the state it leaves. -/
inductive Effect (i : Instr) (s : State) : State → Prop where
  /-- NOP leaves the state. -/
  | nop (h : i = .nop) : Effect i s s
  /-- A command other than NOP raised a code other than OK. -/
  | raised (h : i ≠ .nop) (c : StatusCode) (hc : c ≠ .ok) (k : Kind) : Effect i s (raiseCode c k s)
  /-- ENC.HB completed. -/
  | encodedHb (h : i = .encHb) : Effect i s (endOk .heartbeat (setFout (heartbeatFrame s) s))
  /-- ENC.CE completed. -/
  | encodedCe (h : i = .encCe) : Effect i s (endOk .commError (setFout (commErrorFrame s) s))
  /-- DEC.HB or DEC completed with a heartbeat. -/
  | decodedHb (h : i = .decHb ∨ i = .dec) (f r d g : Word) : Effect i s (endOk .heartbeat (setHeartbeat f r d g s))
  /-- DEC.CE or DEC completed with a comm error. -/
  | decodedCe (h : i = .decCe ∨ i = .dec) (y m : Word) : Effect i s (endOk .commError (setCommError y m s))
  /-- EXTRACT completed. -/
  | extracted (off nb : Nat) (o : ByteOrder) (sh w : Nat) (h : i = .extract off nb o sh w) (x : Word) :
      Effect i s (endOk .none (setXres x s))
  /-- LOOP completed. -/
  | looped (h : i = .loop) : Effect i s (endOk .none (setFin s.fout s))

/-- A heartbeat field check inside DEC.HB or DEC has one of the effects above. -/
theorem decodeHeartbeatFields_effect {i : Instr} (h : i = .decHb ∨ i = .dec) (k : Kind) (s : State) :
    Effect i s (decodeHeartbeatFields k s) := by
  have hn : i ≠ .nop := by rcases h with rfl | rfl <;> decide
  rcases decodeHeartbeatFields_cases k s with e | ⟨f, r, d, g, e⟩ <;> rw [e]
  · exact .raised hn _ (by decide) _
  · exact .decodedHb h f r d g

/-- A comm-error field check inside DEC.CE or DEC has one of the effects above. -/
theorem decodeCommErrorFields_effect {i : Instr} (h : i = .decCe ∨ i = .dec) (k : Kind) (s : State) :
    Effect i s (decodeCommErrorFields k s) := by
  have hn : i ≠ .nop := by rcases h with rfl | rfl <;> decide
  rcases decodeCommErrorFields_cases k s with e | ⟨y, m, e⟩ <;> rw [e]
  · exact .raised hn _ (by decide) _
  · exact .decodedCe h y m

/-- Every command answers a next state, with one of the effects above. -/
theorem exec_effect (i : Instr) (s : State) : ∃ t, exec i s = .next t ∧ Effect i s t := by
  cases i with
  | nop => exact ⟨_, rfl, .nop rfl⟩
  | encHb => exact ⟨_, rfl, .encodedHb rfl⟩
  | encCe => exact ⟨_, rfl, .encodedCe rfl⟩
  | decHb =>
    refine ⟨_, rfl, ?_⟩
    split
    · exact .raised (by decide) _ (by decide) _
    · split
      · exact .raised (by decide) _ (by decide) _
      · exact decodeHeartbeatFields_effect (.inl rfl) _ _
  | decCe =>
    refine ⟨_, rfl, ?_⟩
    split
    · exact .raised (by decide) _ (by decide) _
    · split
      · exact .raised (by decide) _ (by decide) _
      · exact decodeCommErrorFields_effect (.inl rfl) _ _
  | dec =>
    refine ⟨_, rfl, ?_⟩
    split
    · exact .raised (by decide) _ (by decide) _
    · exact .raised (by decide) _ (by decide) _
    · exact .raised (by decide) _ (by decide) _
    · split
      · exact .raised (by decide) _ (by decide) _
      · exact decodeHeartbeatFields_effect (.inr rfl) _ _
    · split
      · exact .raised (by decide) _ (by decide) _
      · exact decodeCommErrorFields_effect (.inr rfl) _ _
  | extract off nb o sh w =>
    refine ⟨_, rfl, ?_⟩
    split
    · exact .raised (by simp) _ (by decide) _
    · split
      · exact .raised (by simp) _ (by decide) _
      · exact .extracted _ _ _ _ _ rfl _
  | loop => exact ⟨_, rfl, .looped rfl⟩

/-- The effect of a command that is known to answer `t`. -/
theorem effect_of_exec {i : Instr} {s t : State} (h : exec i s = .next t) : Effect i s t := by
  obtain ⟨u, hu, e⟩ := exec_effect i s
  rw [hu] at h
  cases h
  exact e

end Sys2Proof.Machine
end

