-- ==== Sys2Proof/Laws/PerInstr.lean ====
section
/-! SUPPORT. A statement about each command as syntax, made per constructor: the word of a well-formed command has its opcode in
bits 3:0 and zeros in the reserved bits of its format (30_encoding R80, R82). -/

namespace Sys2Proof.Laws.WordFormat

/-- The highest bit a format uses, plus one: 4 in format R, 20 in format X (30_encoding R80). -/
def usedBits : Instr → Nat
  | .extract _ _ _ _ _ => 20
  | .nop => 4
  | .encHb => 4
  | .encCe => 4
  | .decHb => 4
  | .decCe => 4
  | .dec => 4
  | .loop => 4

/-- The word of `i` carries its opcode in bits 3:0, and every bit its format reserves is 0. -/
def Statement (i : Instr) : Prop :=
  i.wellFormed = true → (encode i).toNat % 16 = opcode i ∧ (encode i).toNat / 2 ^ usedBits i = 0

theorem nop : Statement .nop := fun _ => ⟨rfl, rfl⟩
theorem encHb : Statement .encHb := fun _ => ⟨rfl, rfl⟩
theorem encCe : Statement .encCe := fun _ => ⟨rfl, rfl⟩
theorem decHb : Statement .decHb := fun _ => ⟨rfl, rfl⟩
theorem decCe : Statement .decCe := fun _ => ⟨rfl, rfl⟩
theorem dec : Statement .dec := fun _ => ⟨rfl, rfl⟩
theorem loop : Statement .loop := fun _ => ⟨rfl, rfl⟩

theorem extract (off nb : Nat) (order : ByteOrder) (sh w : Nat) : Statement (.extract off nb order sh w) := by
  intro h
  simp only [Instr.wellFormed, Bool.and_eq_true, decide_eq_true_eq] at h
  have hb : bitOfOrder order ≤ 1 := by cases order <;> decide
  simp only [encode, opcode, operandBits, usedBits, BitVec.toNat_ofNat]
  omega

end Sys2Proof.Laws.WordFormat
end

