-- ==== Sys2Proof/Laws/Step.lean ====
section
/-! SUPPORT. What one step can do, said once (10_state R20): the inversion lemma of `step`, from which the rules of the whole machine
follow by cases, and the steps of a defined read and a defined write. -/

namespace Sys2Proof.Machine

/-- No command changes the parameters, the host's side or CMD. -/
theorem effect_frame {i : Instr} {s t : State} (h : Effect i s t) : t.config = s.config ∧ t.host = s.host ∧ t.cmd = s.cmd := by
  cases h <;> exact ⟨rfl, rfl, rfl⟩

/-- No host write reaches FOUT, XRES, the parameters or the host's side (20_memory R54). -/
theorem writeOffset_frame (off : Nat) (w : Word) (s : State) :
    (writeOffset off w s).fout = s.fout ∧ (writeOffset off w s).xres = s.xres ∧ (writeOffset off w s).config = s.config ∧
      (writeOffset off w s).host = s.host := by
  unfold writeOffset
  split
  · exact writeReg_frame _ _ _
  · exact ⟨rfl, rfl, rfl, rfl⟩

/-- Everything a step that answers `t` can have been: idle, reset, a read, a write elsewhere than CMD, a command, an illegal word. -/
theorem step_cases {s t : State} (h : step s = .next t) :
    configValid s.config ∧
      ((s.host.pending = [] ∧ t = s) ∨
        (∃ rest, s.host.pending = .reset :: rest ∧ t = resetBlock (setPending rest s)) ∨
        (∃ off rest, s.host.pending = .read (s.config.base + off) 4 :: rest ∧
          t = returnWord (readOffset off s) (accessDone rest s)) ∨
        (∃ off w rest, s.host.pending = .write (s.config.base + off) 4 w :: rest ∧ regAt off ≠ some .cmd ∧
          t = writeOffset off w (accessDone rest s)) ∨
        (∃ w rest i, s.host.pending = .write s.config.base 4 w :: rest ∧ decode w = .ok i ∧
          Effect i (setCmd w (accessDone rest s)) t) ∨
        (∃ w rest e, s.host.pending = .write s.config.base 4 w :: rest ∧ decode w = .error e ∧
          t = illegalCommand (setCmd w (accessDone rest s)))) := by
  by_cases hc : configValid s.config
  swap
  · rw [step, nextAction_invalid hc] at h
    cases h
  refine ⟨hc, ?_⟩
  unfold step at h
  rcases nextAction_cases hc with
      e | ⟨a, e⟩ | ⟨_, a, e⟩ | ⟨_, _, a, -, -, e⟩ | ⟨_, _, _, a, -, -, b, e⟩ | ⟨w, rest, a, e⟩ <;> simp only [e] at h
  · cases h
  · cases h
    exact .inl ⟨a, rfl⟩
  · cases h
    exact .inr (.inl ⟨_, a, rfl⟩)
  · cases h
    exact .inr (.inr (.inl ⟨_, _, a, rfl⟩))
  · cases h
    exact .inr (.inr (.inr (.inl ⟨_, _, _, a, b, rfl⟩)))
  · cases hd : decode w with
    | ok i =>
      simp only [hd] at h
      exact .inr (.inr (.inr (.inr (.inl ⟨_, _, _, a, hd, effect_of_exec h⟩))))
    | error r =>
      simp only [hd] at h
      cases h
      exact .inr (.inr (.inr (.inr (.inr ⟨_, _, _, a, hd, rfl⟩))))

end Sys2Proof.Machine
end

