-- ==== Sys2Proof/Tests/Slice0.lean ====
section
/-! SUPPORT. The model's own tests: ill-formed operands, command words written out from 30_encoding, vectors of 95_test_vectors, and
for every statement with hypotheses a witness that meets them. Every expected value is the spec's. -/

namespace Sys2Proof.Tests

open Sys2Proof.Machine Sys2Proof.Safety

/-! ### Helpers -/

/-- The state an outcome goes on with. -/
def outState (o : Host.Outcome State Fault Refusal) : Option State :=
  match o with
  | .next s => some s
  | .fault _ => none
  | .refused _ => none

/-- One step: the host writes the command word `w`. -/
def perform (w : Nat) (s : State) : Option State := outState (step (s.withFetchWord 32 w))

/-- One step: the host input `x`. -/
def take (x : HostInput) (s : State) : Option State := outState (step (setPending [x] s))

/-- The prefill F0 of 95_test_vectors, with XRES as its EXTRACT vectors have it. -/
def f0 : State :=
  { State.reset with fwd := 0xAA, rev := 0xBB, dir := 0xCC, sig := 0xDD, sys := 0xEE, millis := 0xFF, xres := 0x5A5A5A5A }

/-- A configuration at the other end of the parameters' ranges: SIG_SHIFT 6, CE_ORDER BE, a base address, a systemId of 255. -/
def farConfig : Config :=
  { Config.reference with sigShift := 6, ceOrder := .be, base := 0x40000000, systemIds := [1, 255] }

/-- `s` with the frame (id, len, bytes) in FIN. -/
def withFin (id : Word) (len : Byte) (bytes : List Byte) (s : State) : State :=
  { s with fin := { id := id, len := len, pay := putBytes zeroPayload 0 bytes } }

/-- The frames fr, fr8 and hb of 95_test_vectors section 4. -/
def fr : State := withFin 0x11 5 [0x01, 0x94, 0x11, 0x00, 0x00] f0
@[inherit_doc fr] def fr8 : State := withFin 0x99 8 [0x12, 0x34, 0x56, 0x78, 0x9A, 0xBC, 0xDE, 0xF0] f0
@[inherit_doc fr] def hb : State := withFin 0x10 3 [0x80, 0x00, 0x0B] f0

/-- `s` with STICKY set. -/
def stickySet (s : State) : State := { s with status := { s.status with sticky := true } }

/-! ### WellFormed: one ill-formed term for each check (30_encoding R90) -/

theorem test_wf_refuses_off_8 : (Instr.extract 8 1 .le 0 1).wellFormed = false := by decide
theorem test_wf_refuses_nb_0 : (Instr.extract 0 0 .le 0 1).wellFormed = false := by decide
theorem test_wf_refuses_nb_5 : (Instr.extract 0 5 .le 0 1).wellFormed = false := by decide
theorem test_wf_refuses_sh_32 : (Instr.extract 0 1 .le 32 1).wellFormed = false := by decide
theorem test_wf_refuses_w_0 : (Instr.extract 0 1 .le 0 0).wellFormed = false := by decide
theorem test_wf_refuses_w_33 : (Instr.extract 0 1 .le 0 33).wellFormed = false := by decide
theorem test_wf_accepts_the_extremes :
    (Instr.extract 0 1 .le 0 1).wellFormed = true ∧ (Instr.extract 7 4 .be 31 32).wellFormed = true := by decide

/-! ### Decoding: words from the tables of 30_encoding R80, R82, R90 -/

theorem test_decode_nop : decodeTableWord 32 0b0000 = some .nop := by decide
theorem test_decode_enc_hb : decodeTableWord 32 0b0001 = some .encHb := by decide
theorem test_decode_enc_ce : decodeTableWord 32 0b0010 = some .encCe := by decide
theorem test_decode_dec_hb : decodeTableWord 32 0b0011 = some .decHb := by decide
theorem test_decode_dec_ce : decodeTableWord 32 0b0100 = some .decCe := by decide
theorem test_decode_dec : decodeTableWord 32 0b0101 = some .dec := by decide
theorem test_decode_loop : decodeTableWord 32 0b0111 = some .loop := by decide

/-- Format X field by field: 31:20 reserved, WM1 = 23, SH = 8, BE = 0, NBM1 = 3, OFF = 1, OP = 6 (95_test_vectors X13, 0x000BA196). -/
theorem test_decode_extract_le :
    decodeTableWord 32 0b000000000000_10111_01000_0_11_001_0110 = some (.extract 1 4 .le 8 24) := by decide

/-- The same with every field different and BE = 1 (95_test_vectors X14, 0x00039286). -/
theorem test_decode_extract_be :
    decodeTableWord 32 0b000000000000_00111_00100_1_01_000_0110 = some (.extract 0 2 .be 4 8) := by decide

/-- 30_encoding R83, one word for each way to be illegal, and 95_test_vectors K9. -/
theorem test_decode_illegal :
    decode 0x00000008 = .error .reservedOpcode ∧ decode 0x00000010 = .error .reservedBitsR ∧
      decode 0x80000001 = .error .reservedBitsR ∧ decode 0x00100006 = .error .reservedBitsX ∧
      decode 0xFFFFFFFF = .error .reservedOpcode := by decide

/-- 30_encoding R92: the pseudo-commands' words in the reference configuration. -/
theorem test_encode_pseudo :
    encode (extractByte 2) = 0x00038026 ∧ encode extractDir = 0x00008026 ∧
      encode (extractSig Config.reference) = 0x00008826 ∧ encode (extractMillis Config.reference) = 0x000F8196 ∧
      encode (extractMillis farConfig) = 0x000F8396 := by decide

/-! ### Assembler (30_encoding R90 to R92) -/

theorem test_assemble_extract :
    assembleCommand Config.reference "Extract".toList [.num 5, .num 4, .name "LE".toList, .num 0, .num 32] = some 0x000F81D6 := by
  decide

theorem test_assemble_refuses_off_8 :
    assembleCommand Config.reference "EXTRACT".toList [.num 8, .num 1, .name "LE".toList, .num 0, .num 8] = none := by decide

/-- `RD XRES` and `CLRSTICKY` are accesses at 0x40 and 0x04 from BASE (20_memory R51). -/
theorem test_assemble_lines :
    assembleLine farConfig (.rd "XRES".toList) = some (.read 0x40000040 4) ∧
      assembleLine farConfig .clrSticky = some (.write 0x40000004 4 0x00000100) := by decide

/-! ### Commands: vectors of 95_test_vectors, one step each -/

/-- K3: NOP leaves STATUS 0x101. -/
theorem test_nop_keeps_status :
    (perform 0x0 { State.reset with status := { code := 1, kind := 0, sticky := true } }).map (fun t => statusWord t.status) =
      some 0x00000101 := by decide

/-- H5: truncation to 8 and 2 bits. -/
theorem test_enc_hb_truncates :
    (perform 0x1 { State.reset with fwd := 0x1FF, rev := 0x100, dir := 6, sig := 7 }).map
      (fun t => (t.fout.id, t.fout.len, lanesOf t.fout.pay 0, statusWord t.status)) =
      some (0x10, 3, 0x000E00FF, 0x00000010) := by decide

/-- L1.1, other SIG_SHIFT values: byte 2 is 0x80 at shift 6. -/
theorem test_enc_hb_shift_6 :
    (perform 0x1 { State.resetWith farConfig with fwd := 128, sig := 2 }).map (fun t => lanesOf t.fout.pay 0) =
      some 0x00800080 := by decide

/-- E3: SYS truncated to 8 bits, little-endian. -/
theorem test_enc_ce_le :
    (perform 0x2 { State.reset with sys := 0x101, millis := 0xDEADBEEF }).map
      (fun t => (t.fout.len, lanesOf t.fout.pay 0, lanesOf t.fout.pay 4, statusWord t.status)) =
      some (5, 0xADBEEF01, 0x000000DE, 0x00000020) := by decide

/-- E4: the same, big-endian. -/
theorem test_enc_ce_be :
    (perform 0x2 { State.resetWith farConfig with sys := 0x101, millis := 0xDEADBEEF }).map
      (fun t => (lanesOf t.fout.pay 0, lanesOf t.fout.pay 4)) = some (0xBEADDE01, 0x000000EF) := by decide

/-- DV6: reserved bits 7:4 of byte 2 ignored. -/
theorem test_dec_hb_ignores_reserved :
    (perform 0x3 (withFin 0x10 3 [0x05, 0x06, 0xF1] f0)).map (fun t => (t.fwd, t.rev, t.dir, t.sig, statusWord t.status)) =
      some (5, 6, 1, 0, 0x00000010) := by decide

/-- DV12: the length is checked before the identifier (90_conflicts C1), and no field is written. -/
theorem test_dec_hb_length_first :
    (perform 0x3 (withFin 0x11 5 [0x01, 0x02] f0)).map (fun t => (t.fwd, t.sys, statusWord t.status)) =
      some (0xAA, 0xEE, 0x00000101) := by decide

/-- DV23: systemId 7 is outside the reference set. -/
theorem test_dec_ce_bad_field :
    (perform 0x4 (withFin 0x11 5 [0x07] f0)).map (fun t => (t.sys, t.millis, statusWord t.status)) =
      some (0xEE, 0xFF, 0x00000103) := by decide

/-- DV28: big-endian millisSinceLast. -/
theorem test_dec_ce_be :
    (perform 0x4 { State.resetWith farConfig with fin := (withFin 0x11 5 [0x01, 0x00, 0x00, 0x11, 0x94] f0).fin }).map
      (fun t => (t.sys, t.millis, statusWord t.status)) = some (1, 0x00001194, 0x00000020) := by decide

/-- DV40: a reserved kind keeps its KIND, whatever the length. -/
theorem test_dec_reserved :
    (perform 0x5 (withFin 0x12 1 [0x01] f0)).map (fun t => statusWord t.status) = some 0x00000135 := by decide

/-- DV45: all 32 bits of the identifier are compared. -/
theorem test_dec_unknown :
    (perform 0x5 (withFin 0x00000110 3 [0x80, 0x00, 0x08] f0)).map (fun t => (t.fwd, statusWord t.status)) =
      some (0xAA, 0x00000104) := by decide

/-- X13: 0x9A785634 >> 8. -/
theorem test_extract_le : (perform 0x000BA196 fr8).map (fun t => (t.xres, statusWord t.status)) = some (0x009A7856, 0) := by decide

/-- X14: (0x1234 >> 4) & 0xFF. -/
theorem test_extract_be : (perform 0x00039286 fr8).map (fun t => (t.xres, statusWord t.status)) = some (0x00000023, 0) := by decide

/-- K2: LOOP after H1, which left the heartbeat frame in FOUT. -/
theorem test_loop :
    (perform 0x7 { f0 with fout := (withFin 0x10 3 [0x80, 0x00, 0x08] f0).fin }).map
      (fun t => (t.fin.id, t.fin.len, lanesOf t.fin.pay 0, lanesOf t.fin.pay 4, statusWord t.status)) =
      some (0x10, 3, 0x00080080, 0, 0) := by decide

/-- X26: an illegal word; XRES unchanged, the word stays in CMD. -/
theorem test_illegal_word :
    (perform 0x00100006 f0).map (fun t => (t.xres, t.cmd, statusWord t.status)) =
      some (0x5A5A5A5A, 0x00100006, 0x00000107) := by decide

/-! ### Host accesses: the STATUS and register vectors of 95_test_vectors section 6 -/

/-- S5: writing bit 8 clears STICKY; S6: CODE and KIND stay. -/
theorem test_status_write :
    (take (.write 0x04 4 0x00000100) { f0 with status := { code := 0, kind := 1, sticky := true } }).map
      (fun t => statusWord t.status) = some 0x00000010 := by decide

/-- A1: FIN_LEN keeps bits 7:0. -/
theorem test_fin_len_write : (take (.write 0x0C 4 0x00001234) State.reset).map (fun t => t.fin.len) = some 0x34 := by decide

/-- A6: FIN_PAY1 lanes. -/
theorem test_fin_pay1_write :
    (take (.write 0x14 4 0x88776655) State.reset).map
      (fun t => (payByte t.fin.pay 3, payByte t.fin.pay 4, payByte t.fin.pay 7)) = some (0, 0x55, 0x88) := by decide

/-- A3: XRES is read-only. -/
theorem test_xres_write : (take (.write 0x40 4 0x12345678) State.reset).map (fun t => t.xres) = some 0 := by decide

/-- A2: an unmapped read returns 0. -/
theorem test_unmapped_read : (take (.read 0x48 4) f0).map (fun t => t.host.reads) = some [0] := by decide

/-! ### Witnesses: states and operands that meet the statements' hypotheses -/

/-- Both ends of the parameters' ranges are valid configurations (R8): SIG_SHIFT 2 and LE, SIG_SHIFT 6 and BE. -/
theorem test_witness_configValid : configValid Config.reference ∧ configValid farConfig := by decide

theorem test_witness_ResetInputKeepsParameters :
    configValid farConfig ∧ (setPending [.reset, .read 0 4] { f0 with config := farConfig }).host.pending = .reset :: [.read 0 4] := by
  decide

/-- A configuration for each way DEC can go right after reset, and EXTRACT operands for both of its codes. -/
theorem test_witness_CommandsAfterReset :
    configValid farConfig ∧ farConfig.idHeartbeat ≠ 0 ∧ farConfig.idCommError ≠ 0 ∧ farConfig.idHandbrake ≠ 0 ∧
      farConfig.idEncoderSpeed ≠ 0 ∧ configValid { farConfig with idHeartbeat := 0 } ∧
      configValid { farConfig with idCommError := 0 } ∧ configValid { farConfig with idHandbrake := 0 } ∧
      configValid { farConfig with idEncoderSpeed := 0 } ∧
      ((Instr.extract 7 2 .be 0 1).wellFormed = true ∧ 8 < 7 + 2) ∧ (Instr.extract 0 1 .le 0 8).wellFormed = true := by decide

/-- Each constraint of R8 broken alone. -/
theorem test_witness_InvalidConfigurationRefused :
    step (State.resetWith { Config.reference with idEncoderSpeed := 0x10 }) = .refused .invalidConfiguration ∧
      step (State.resetWith { Config.reference with sigShift := 1 }) = .refused .invalidConfiguration ∧
      step (State.resetWith { Config.reference with sigShift := 7 }) = .refused .invalidConfiguration ∧
      step (State.resetWith { Config.reference with systemMotorControl := 4 }) = .refused .invalidConfiguration :=
  ⟨rfl, rfl, rfl, rfl⟩

theorem test_witness_NoStepChangesTheConfiguration : ∃ t, step (setPending [.reset] f0) = .next t ∧ t.config = Config.reference :=
  ⟨_, rfl, rfl⟩

/-- Words at the edges of R83: the first and last legal and illegal ones of each format. -/
theorem test_witness_EveryWordIsOneCommandOrIllegal :
    IllegalWord 0x00000008 ∧ IllegalWord 0x00000010 ∧ IllegalWord 0x00100006 ∧ IllegalWord 0xFFFFFFF7 ∧
      ¬ IllegalWord 0x00000007 ∧ ¬ IllegalWord 0x00000006 ∧ ¬ IllegalWord 0x000FFFF6 := by decide

theorem test_witness_DecodeEncodeRoundTrip :
    (Instr.extract 7 4 .be 31 32).wellFormed = true ∧ encode (.extract 7 4 .be 31 32) = 0x000FFFF6 := by decide

/-- A line the assembler accepts, and for each operand the values next to its range. -/
theorem test_witness_AssembledWordsDecode :
    commandNamed Config.reference "loop".toList [] = some .loop ∧
      assembleCommand Config.reference "loop".toList [] = some 0x00000007 ∧
      (7 < 8 ∧ 0 < 1 ∧ 4 < 5 ∧ 31 < 32 ∧ 32 < 33) ∧
      assembleLine Config.reference (.rd "CMD".toList) = some (.read 0 4) ∧
      assembleLine Config.reference (.wr "MILLIS".toList 0xFFFFFFFF) = some (.write 0x3C 4 0xFFFFFFFF) := by decide

/-- The last value of each range is accepted, with a descriptor that breaks 42_frame_parser R161 (30_encoding R90). -/
theorem test_assemble_accepts_the_extremes :
    assembleCommand Config.reference "EXTRACT".toList [.num 7, .num 4, .name "BE".toList, .num 31, .num 32] =
      some 0x000FFFF6 := by decide

/-- A name of the map, a name outside it (register names are taken as written, log 13), and a two-line program. -/
theorem test_witness_ProgramLinesAreTheirAccesses :
    ("XRES", 0x40) ∈ registerNames ∧ (∀ p ∈ registerNames, "xres".toList ≠ p.1.toList) ∧ 2 ^ 32 ≤ 0x100000000 ∧
      (loadProgram [.wr "FWD".toList 128, .cmd "enc.hb".toList []] State.reset).map (fun t => t.host.pending) =
        some [.write 0x28 4 128, .write 0x00 4 1] := by decide

theorem test_witness_StepPerformsDecodedCommand :
    let s := setPending [.write 0x40000000 4 0x000FFFF6, .reset] (State.resetWith farConfig)
    configValid s.config ∧ WritesNext s 0x00 0x000FFFF6 [.reset] ∧ decode 0x000FFFF6 = .ok (.extract 7 4 .be 31 32) := by decide

theorem test_witness_IllegalWordReportsIllegalCmd :
    configValid f0.config ∧ (WritesNext (setPending [.write 0 4 0x00000008] f0) 0x00 0x00000008 [] ∧ IllegalWord 0x00000008) ∧
      (WritesNext (setPending [.write 0 4 0x00000010] f0) 0x00 0x00000010 [] ∧ IllegalWord 0x00000010) ∧
      (WritesNext (setPending [.write 0 4 0x00100006] f0) 0x00 0x00100006 [] ∧ IllegalWord 0x00100006) := by decide

/-- Undefined accesses next to the defined ones: a byte, an odd halfword, one past the window, below it. -/
theorem test_witness_UndefinedAccessRefused :
    ¬ DefinedAccess farConfig 0x40000000 1 ∧ ¬ DefinedAccess farConfig 0x40000002 4 ∧ ¬ DefinedAccess farConfig 0x40000100 4 ∧
      ¬ DefinedAccess farConfig 0x3FFFFFFC 4 ∧ DefinedAccess farConfig 0x40000000 4 ∧ DefinedAccess farConfig 0x400000FC 4 := by
  decide

/-- Each of them as the host's next input, a read and a write. -/
theorem test_witness_UndefinedAccessRefused_steps :
    step (setPending [.read 0x02 4] f0) = .refused .undefinedAccess ∧
      step (setPending [.write 0x100 4 7] f0) = .refused .undefinedAccess := ⟨rfl, rfl⟩

theorem test_witness_EveryDefinedInputCompletes :
    configValid f0.config ∧ NextInputDefined f0 ∧ NextInputDefined (setPending [.reset] f0) ∧
      NextInputDefined (setPending [.read 0xFC 4] f0) ∧ NextInputDefined (setPending [.write 0 4 0xFFFFFFFF] f0) :=
  ⟨by decide, trivial, trivial, by simp [NextInputDefined, DefinedAccess, f0, State.reset, State.resetWith, Config.reference, setPending],
    by simp [NextInputDefined, DefinedAccess, f0, State.reset, State.resetWith, Config.reference, setPending]⟩

theorem test_witness_NothingHappensWithoutInput : configValid f0.config ∧ f0.host.pending = [] := by decide

theorem test_witness_HostSideAdvances :
    ∀ x ∈ [HostInput.read 0xFC 4, .write 0 4 5, .reset],
      (setPending [x, .reset] f0).host.pending = x :: [.reset] ∧ (outState (step (setPending [x, .reset] f0))).isSome = true := by
  decide

theorem test_witness_HostReadReturnsRegister :
    ∀ p ∈ registerMap, configValid f0.config ∧ ReadsNext (setPending [.read p.1 4] f0) p.1 [] := by decide

theorem test_witness_UnmappedOffsetsReadZero :
    ∀ off ∈ [0x44, 0xFC], configValid f0.config ∧ 0x44 ≤ off ∧ off ≤ 0xFC ∧ off % 4 = 0 ∧
      ReadsNext (setPending [.read off 4] f0) off [] ∧ WritesNext (setPending [.write off 4 1] f0) off 1 [] := by decide

theorem test_witness_ReadOnlyRegistersIgnoreWrites :
    ∀ off ∈ [0x18, 0x1C, 0x20, 0x24, 0x40, 0x04],
      configValid f0.config ∧ WritesNext (setPending [.write off 4 0x100] f0) off 0x100 [] := by decide

theorem test_witness_PayloadLanes :
    (∀ off ∈ [0x10, 0x14], WritesNext (setPending [.write off 4 0x44332211] f0) off 0x44332211 []) ∧
      (∀ off ∈ [0x10, 0x14, 0x20, 0x24], ReadsNext (setPending [.read off 4] f0) off []) ∧ configValid f0.config := by decide

theorem test_witness_RegisterWritesStoreTheWord :
    ∀ off ∈ [0x0C, 0x08, 0x28, 0x2C, 0x30, 0x34, 0x38, 0x3C],
      configValid f0.config ∧ WritesNext (setPending [.write off 4 0xFFFFFFFF] f0) off 0xFFFFFFFF [] := by decide

theorem test_witness_NopChangesNothing :
    ((0x00000010 : Word).toNat % 16 = 0 ∧ (0x00000010 : Word).toNat / 16 ≠ 0) ∧
      (0xFFFFFFF0 : Word).toNat % 16 = 0 ∧ (0xFFFFFFF0 : Word).toNat / 16 ≠ 0 := by decide

theorem test_witness_EncHbWritesHeartbeatFrame : configValid { f0 with config := farConfig }.config := by decide

theorem test_witness_EncCeWritesCommErrorFrame :
    f0.config.ceOrder = .le ∧ (State.resetWith farConfig).config.ceOrder = .be := by decide

/-- Two different states that agree on the heartbeat fields, and two that agree on the comm-error fields. -/
theorem test_witness_EncodersReadOnlyTheirFields :
    let u := { fr8 with sys := 1 }
    let v := { fr8 with fwd := 1 }
    u ≠ f0 ∧ u.config = f0.config ∧ u.fwd = f0.fwd ∧ u.rev = f0.rev ∧ u.dir = f0.dir ∧ u.sig = f0.sig ∧
      v ≠ f0 ∧ v.config = f0.config ∧ v.sys = f0.sys ∧ v.millis = f0.millis := by decide

theorem test_witness_SecondEncodeOverwritesFirst :
    Instr.encHb ∈ [Instr.encHb, Instr.encCe] ∧ Instr.encCe ∈ [Instr.encHb, Instr.encCe] := by decide

/-- One state for each way DEC.HB goes: length, identifier, direction code, OK. -/
theorem test_witness_DecHbChecksThenWritesFields :
    (withFin 0x10 9 [] f0).fin.len.toNat ≠ 3 ∧ (withFin 0x11 3 [] f0).fin.id ≠ f0.config.idHeartbeat ∧
      finByte hb 2 % 4 = 3 ∧ finByte (withFin 0x10 3 [0x80, 0, 0x08] f0) 2 % 4 ≠ 3 ∧
      ∃ t, exec .decHb (withFin 0x10 3 [0x80, 0, 0x08] f0) = .next t ∧ t.status.code = 0 :=
  ⟨by decide, by decide, by decide, by decide, _, rfl, rfl⟩

/-- The same for DEC.CE: length, identifier, systemId, OK in each byte order. -/
theorem test_witness_DecCeChecksThenWritesFields :
    (withFin 0x11 6 [] f0).fin.len.toNat ≠ 5 ∧ (withFin 0x10 5 [] f0).fin.id ≠ f0.config.idCommError ∧
      payByte (withFin 0x11 5 [7] f0).fin.pay 0 ∉ f0.config.systemIds ∧ payByte fr.fin.pay 0 ∈ fr.config.systemIds ∧
      payByte fr.fin.pay 0 ∈ farConfig.systemIds := by decide

theorem test_witness_DecDispatchesByIdentifier :
    configValid f0.config ∧ hb.fin.id = hb.config.idHeartbeat ∧ fr.fin.id = fr.config.idCommError ∧
      (withFin 0x12 1 [] f0).fin.id = f0.config.idHandbrake ∧ (withFin 0x13 8 [] f0).fin.id = f0.config.idEncoderSpeed ∧
      fr8.fin.id ∉ [f0.config.idHeartbeat, f0.config.idCommError, f0.config.idHandbrake, f0.config.idEncoderSpeed] := by decide

/-- The ends of the ranges of R135, and a systemId of 255 in a set that holds it. -/
theorem test_witness_RoundTripLaws :
    let s := { State.resetWith farConfig with fwd := 255, rev := 255, dir := 2, sig := 3, sys := 255, millis := 0xFFFFFFFF }
    configValid s.config ∧ s.fwd.toNat ≤ 255 ∧ s.rev.toNat ≤ 255 ∧ s.dir.toNat ≤ 2 ∧ s.sig.toNat ≤ 3 ∧ s.sys.toNat ≤ 255 ∧
      s.sys.setWidth 8 ∈ s.config.systemIds := by decide

theorem test_witness_HazardDecodesAsBothSignals :
    let s := { State.resetWith farConfig with dir := 6, sig := 3 }
    configValid s.config ∧ s.sig = signalHazard.setWidth 32 ∧ s.dir.toNat % 4 ≠ 3 := by decide

/-- Two blocks of one configuration, and the fields each rejection needs. -/
theorem test_witness_FrameExchangeDeliversTruncatedFields :
    configValid f0.config ∧ fr8.config = f0.config ∧ { f0 with dir := 7 }.dir.toNat % 4 = 3 ∧ f0.dir.toNat % 4 ≠ 3 ∧
      f0.sys.setWidth 8 ∉ f0.config.systemIds ∧ { f0 with sys := 0x101 }.sys.setWidth 8 ∈ f0.config.systemIds := by decide

/-- Byte 2 of 0x05 and of 0xF5 differ in the reserved bits 7:4 only. -/
theorem test_witness_ReservedBitsIgnored :
    let s := withFin 0x10 3 [1, 2, 0x05] f0
    let q := putBytes zeroPayload 0 [1, 2, 0xF5]
    s.fin.id = s.config.idHeartbeat ∧ q ≠ s.fin.pay ∧ (∀ k, k < 8 → k ≠ 2 → payByte q k = payByte s.fin.pay k) ∧
      ∀ j, j ∈ [0, 1, s.config.sigShift, s.config.sigShift + 1] →
        (payByte q 2).getLsbD j = (payByte s.fin.pay 2).getLsbD j := by decide

/-- Operands at the edges of each case of R160: byte 8 (X19), bit 8 (X20), LEN 9 (X25), LEN too short (X22), the last byte (X9), and
four bytes in each order (X1, X2). -/
theorem test_witness_ExtractTakesTheField :
    ((Instr.extract 5 4 .le 0 32).wellFormed = true ∧ 8 < 5 + 4) ∧
      ((Instr.extract 0 1 .le 4 8).wellFormed = true ∧ ¬ 8 < 0 + 1 ∧ 8 * 1 < 4 + 8) ∧
      ((Instr.extract 0 1 .le 0 8).wellFormed = true ∧ 8 < (withFin 0 9 [] f0).fin.len.toNat) ∧
      ((Instr.extract 3 4 .le 0 32).wellFormed = true ∧ fr.fin.len.toNat < 3 + 4) ∧
      ((Instr.extract 7 1 .le 0 8).wellFormed = true ∧ fr8.fin.len.toNat = 7 + 1) ∧
      ((Instr.extract 1 4 .be 0 32).wellFormed = true ∧ fr.fin.len.toNat = 1 + 4 ∧ 0 + 32 = 8 * 4) := by decide

/-- Two states that agree on FIN only. -/
theorem test_witness_ExtractsAreIndependent :
    let u := { stickySet fr8 with xres := 7, fwd := 1 }
    u.fin = fr8.fin ∧ u ≠ fr8 ∧ ∃ t, exec (.extract 7 1 .le 0 8) fr8 = .next t ∧ t.status.code = 0 :=
  ⟨rfl, by decide, _, rfl, rfl⟩

/-- A heartbeat the decoder accepts, one it rejects (direction code 3), and the same for comm errors. -/
theorem test_witness_ExtractAgreesWithDecoder :
    (∃ t, exec .decHb (withFin 0x10 3 [0x80, 0, 0x08] f0) = .next t ∧ t.status.code = 0) ∧
      (hb.fin.id = hb.config.idHeartbeat ∧ hb.fin.len.toNat = 3 ∧ ∃ t, exec .decHb hb = .next t ∧ t.status.code ≠ 0) ∧
      (fr.fin.id = fr.config.idCommError ∧ fr.fin.len.toNat = 5 ∧ ∃ t, exec .decCe fr = .next t ∧ t.status.code = 0) ∧
      ∃ t, exec .decCe (withFin 0x11 5 [7] f0) = .next t ∧ t.status.code ≠ 0 :=
  ⟨⟨_, rfl, rfl⟩, ⟨rfl, rfl, _, rfl, by decide⟩, ⟨rfl, rfl, _, rfl, rfl⟩, _, rfl, by decide⟩

/-- A field that fills the last four bytes, and one inside a byte, with a byte and bits on each side of it. -/
theorem test_witness_PackWritesExactlyTheField :
    descriptorValid ⟨4, 4, .be, 0, 32⟩ = true ∧ descriptorValid ⟨2, 1, .le, 6, 2⟩ = true ∧ (1 < 2 ∧ 2 + 1 ≤ 3) ∧
      ¬ (6 ≤ 5 ∧ 5 < 6 + 2) ∧ (6 ≤ 7 ∧ 7 < 6 + 2 ∧ 7 < 8 * 1) := by decide

theorem test_witness_UnpackAfterPack : descriptorValid ⟨4, 4, .be, 0, 32⟩ = true ∧ (Descriptor.mk 4 4 .be 0 32).width ≤ 32 := by decide

/-- An encode, as a command and as a step, from a state that meets the invariant. -/
theorem test_witness_FoutInvariantHolds :
    FoutInv f0 ∧ (∃ t, exec .encCe f0 = .next t ∧ t.fout.len = 5) ∧ ∃ t, step (f0.withFetchWord 32 1) = .next t ∧ t.fout.len = 3 :=
  ⟨by decide, ⟨_, rfl, rfl⟩, _, rfl, rfl⟩

theorem test_witness_StatusStaysLegal : StatusLegal f0 ∧ ∃ t, step (f0.withFetchWord 32 9) = .next t ∧ t.status.code = 7 :=
  ⟨by decide, _, rfl, rfl⟩

/-- A command for each group of state that one can change. -/
theorem test_witness_CommandsWriteOnlyTheirState :
    (∃ t, exec .loop fr = .next t ∧ t.fin ≠ fr.fin) ∧ (∃ t, exec .encHb fr = .next t ∧ t.fout ≠ fr.fout ∧ t.status ≠ fr.status) ∧
      (∃ t, exec .dec (withFin 0x10 3 [1, 2, 0x05] f0) = .next t ∧ t.fwd ≠ f0.fwd) ∧
      (∃ t, exec .dec fr = .next t ∧ t.sys ≠ fr.sys) ∧ ∃ t, exec (.extract 1 4 .le 0 32) fr = .next t ∧ t.xres ≠ fr.xres :=
  ⟨⟨_, rfl, by decide⟩, ⟨_, rfl, by decide, by decide⟩, ⟨_, rfl, by decide⟩, ⟨_, rfl, by decide⟩, _, rfl, by decide⟩

/-- A command that ends with OK and one that does not. -/
theorem test_witness_StatusWrittenAndNeverRead :
    Instr.dec ≠ .nop ∧ (∃ t, exec .dec fr = .next t ∧ t.status.code = 0) ∧ ∃ t, exec .dec fr8 = .next t ∧ t.status.code ≠ 0 :=
  ⟨by decide, ⟨_, rfl, rfl⟩, _, rfl, by decide⟩

theorem test_witness_FailedCommandWritesStatusOnly :
    ∃ t, exec .decHb hb = .next t ∧ Instr.decHb ≠ .nop ∧ t.status.code ≠ 0 := ⟨_, rfl, by decide, by decide⟩

theorem test_witness_CodesOfEachCommand :
    ∀ i ∈ [Instr.nop, .encHb, .encCe, .decHb, .decCe, .dec, .extract 0 1 .le 0 8, .loop], (outState (exec i fr)).isSome = true := by
  decide

/-- Payloads that differ only beyond LEN 5. -/
theorem test_witness_BytesBeyondLengthNotRead :
    let q := putBytes fr.fin.pay 5 [1, 2, 3]
    q ≠ fr.fin.pay ∧ ∀ k, k < 8 → k < fr.fin.len.toNat → payByte q k = payByte fr.fin.pay k := by decide

/-- STICKY falls at a STATUS write and at reset; CODE changes at a command and at reset. -/
theorem test_witness_StatusStaysUntilOverwritten :
    (∃ t, step (setPending [.write 0x04 4 0x100] (stickySet f0)) = .next t ∧ (stickySet f0).status.sticky = true ∧
        t.status.sticky = false) ∧
      (∃ t, step (setPending [.reset] (stickySet f0)) = .next t ∧ t.status.sticky = false) ∧
      ∃ t, step (fr8.withFetchWord 32 5) = .next t ∧ t.status.code ≠ fr8.status.code :=
  ⟨⟨_, rfl, rfl, rfl⟩, ⟨_, rfl, rfl⟩, _, rfl, by decide⟩

theorem test_witness_OnlyExtractWritesXres :
    (∃ t, step (fr.withFetchWord 32 0x000F8196) = .next t ∧ t.xres ≠ fr.xres) ∧
      ∃ t, step (setPending [.reset] fr) = .next t ∧ t.xres ≠ fr.xres := ⟨⟨_, rfl, by decide⟩, _, rfl, by decide⟩

theorem test_witness_OnlyEncodersWriteFout :
    (∃ t, step (fr.withFetchWord 32 1) = .next t ∧ t.fout ≠ fr.fout) ∧
      (∃ t, step (fr.withFetchWord 32 2) = .next t ∧ t.fout ≠ fr.fout) ∧
      ∃ t, step (setPending [.reset] { fr with fout := fr.fin }) = .next t ∧ t.fout ≠ fr.fin :=
  ⟨⟨_, rfl, by decide⟩, ⟨_, rfl, by decide⟩, _, rfl, by decide⟩

/-- Steps of each kind, from a state whose CMD is not 0: idle, reset, a write elsewhere and one to CMD; and a read of CMD. -/
theorem test_witness_CmdHoldsTheLastWordWritten :
    (∃ t, step { f0 with cmd := 9 } = .next t ∧ t.cmd = 9) ∧
      (∃ t, step (setPending [.reset] { f0 with cmd := 9 }) = .next t ∧ t.cmd = 0) ∧
      (∃ t, step (setPending [.write 0x28 4 1] { f0 with cmd := 9 }) = .next t ∧ t.cmd = 9) ∧
      (∃ t, step ({ f0 with cmd := 9 }.withFetchWord 32 0xF) = .next t ∧ t.cmd = 0xF) ∧
      ReadsNext (setPending [.read 0 4] f0) 0x00 [] :=
  ⟨⟨_, rfl, rfl⟩, ⟨_, rfl, rfl⟩, ⟨_, rfl, rfl⟩, ⟨_, rfl, rfl⟩, rfl⟩

end Sys2Proof.Tests
end

/-! PROOFS. The family 10_state: reset (R35), the invariant of FOUT (R25), and STATUS written and never read (R33). -/

namespace Sys2Proof.StateProofs

open Sys2Proof.Machine Sys2Proof.Safety

/-! ### The zero frame and reset (10_state R35) -/

@[simp] theorem payByte_frameZero (k : Nat) : payByte Frame.zero.pay k = 0 := payByte_zeroPayload k

/-- STATUS with every field 0 reads as 0. -/
theorem statusWord_zero : statusWord { code := 0, kind := 0, sticky := false } = 0 := by decide

/-- Settles O1: each element of `State.resetWith` is the literal 0, and the bytes of both frames are those of the zero frame. -/
theorem resetZeroesEveryElement : Obligations.ResetZeroesEveryElement := by
  refine ⟨⟨Config.reference, rfl⟩, fun c => ?_⟩
  have hbytes : ∀ k, k < 8 → payByte Frame.zero.pay k = 0 := fun k _ => payByte_frameZero k
  exact ⟨rfl, rfl, hbytes, rfl, rfl, hbytes, rfl, rfl, rfl, rfl, rfl, rfl, rfl, rfl, statusWord_zero⟩

/-! ### The invariant of FOUT (10_state R25) -/

/-- The invariant speaks of FOUT alone. -/
theorem foutInv_of_fout_eq {s t : State} (h : t.fout = s.fout) (hs : FoutInv s) : FoutInv t := by
  unfold FoutInv at hs ⊢
  rwa [h]

theorem foutInv_of_fout_zero {s : State} (h : s.fout = Frame.zero) : FoutInv s := by
  unfold FoutInv
  rw [h]
  exact ⟨.inl rfl, fun k _ => payByte_frameZero k.val⟩

/-- Bytes put at the front of the zero payload are followed by zeros. -/
theorem payByte_putBytes_zeroPayload_of_length_le {bs : List Byte} {k : Nat} (hk : k < 8) (h : bs.length ≤ k) :
    payByte (putBytes zeroPayload 0 bs) k = 0 := by
  rw [payByte_putBytes _ _ _ _ hk, if_neg (by omega), payByte_zeroPayload]

/-- A frame whose bytes are put into the zero payload and whose length is their number, 3 or 5, meets the invariant. -/
theorem foutInv_of_putBytes {s : State} {bs : List Byte} (hpay : s.fout.pay = putBytes zeroPayload 0 bs)
    (hlen : s.fout.len.toNat = bs.length) (hbs : bs.length = 3 ∨ bs.length = 5) : FoutInv s := by
  unfold FoutInv
  rw [hpay, hlen]
  exact ⟨.inr hbs, fun k hk => payByte_putBytes_zeroPayload_of_length_le k.isLt hk⟩

theorem foutInv_of_fout_heartbeatFrame {s t : State} (h : t.fout = heartbeatFrame s) : FoutInv t :=
  foutInv_of_putBytes (by rw [h]; rfl) (by rw [h]; rfl) (.inl rfl)

theorem foutInv_of_fout_commErrorFrame {s t : State} (h : t.fout = commErrorFrame s) : FoutInv t :=
  foutInv_of_putBytes (by rw [h]; rfl) (by rw [h]; simp [commErrorFrame, ceLen]) (.inr (by simp))

/-- What a command leaves in FOUT: the frame it encodes, if it is an encoder, and what was there otherwise (10_state R24). -/
theorem effect_fout {i : Instr} {s t : State} (h : Effect i s t) :
    (i = .encHb ∧ t.fout = heartbeatFrame s) ∨ (i = .encCe ∧ t.fout = commErrorFrame s) ∨ t.fout = s.fout := by
  cases h with
  | encodedHb hi => exact .inl ⟨hi, rfl⟩
  | encodedCe hi => exact .inr (.inl ⟨hi, rfl⟩)
  | nop | raised | decodedHb | decodedCe | extracted | looped => exact .inr (.inr rfl)

theorem effect_foutInv {i : Instr} {s t : State} (h : Effect i s t) (hs : FoutInv s) : FoutInv t := by
  rcases effect_fout h with ⟨-, hf⟩ | ⟨-, hf⟩ | hf
  · exact foutInv_of_fout_heartbeatFrame hf
  · exact foutInv_of_fout_commErrorFrame hf
  · exact foutInv_of_fout_eq hf hs

theorem step_foutInv {s t : State} (h : step s = .next t) (hs : FoutInv s) : FoutInv t := by
  obtain ⟨-, hcases⟩ := step_cases h
  rcases hcases with ⟨-, rfl⟩ | ⟨rest, -, rfl⟩ | ⟨off, rest, -, rfl⟩ | ⟨off, w, rest, -, -, rfl⟩ |
    ⟨w, rest, i, -, -, heff⟩ | ⟨w, rest, e, -, -, rfl⟩
  · exact hs
  · exact foutInv_of_fout_zero rfl
  · exact foutInv_of_fout_eq rfl hs
  · obtain ⟨hfout, -⟩ := writeOffset_frame off w (accessDone rest s)
    exact foutInv_of_fout_eq hfout hs
  · exact effect_foutInv heff (foutInv_of_fout_eq rfl hs)
  · exact foutInv_of_fout_eq rfl hs

/-- Settles O43: by cases on what a command and a step can do. Only the encoders and reset write FOUT; the frames they write meet the
invariant whatever FOUT was. -/
theorem foutInvariantHolds : Obligations.FoutInvariantHolds :=
  ⟨fun _ => foutInv_of_fout_zero rfl, fun _ _ _ hs h => effect_foutInv (effect_of_exec h) hs, fun _ _ hs h => step_foutInv h hs⟩

/-! ### STATUS is written by every command but NOP, and read by none (10_state R33) -/

/-- How a command other than NOP writes STATUS, as a function of the STATUS before it. -/
inductive StatusWrite : (Status → Status) → Prop where
  | ok (k : Kind) : StatusWrite (statusOk k)
  | raised (c : StatusCode) (hc : c ≠ .ok) (k : Kind) : StatusWrite fun _ => statusRaised c k

/-- The states `g st`, one for each STATUS `st` before the command, are one state but for STATUS, which a `StatusWrite` gives. -/
def StatusBlind (g : Status → State) : Prop :=
  ∃ u f, StatusWrite f ∧ ∀ st, g st = setStatus (f st) u

theorem statusBlind_endOk (k : Kind) (u : State) : StatusBlind fun st => endOk k (setStatus st u) :=
  ⟨u, _, .ok k, fun _ => rfl⟩

theorem statusBlind_raiseCode (c : StatusCode) (hc : c ≠ .ok) (k : Kind) (s : State) :
    StatusBlind fun st => raiseCode c k (setStatus st s) :=
  ⟨s, _, .raised c hc k, fun _ => rfl⟩

/-- A choice between two ends of a command whose condition STATUS does not enter. -/
theorem statusBlind_ite {p : Prop} {dec : Status → Decidable p} {g h : Status → State} (hg : StatusBlind g)
    (hh : StatusBlind h) : StatusBlind fun st => @ite State p (dec st) (g st) (h st) := by
  by_cases hp : p
  · simpa only [if_pos hp] using hg
  · simpa only [if_neg hp] using hh

theorem statusBlind_decodeHeartbeatFields (k : Kind) (s : State) :
    StatusBlind fun st => decodeHeartbeatFields k (setStatus st s) := by
  simp only [decodeHeartbeatFields, setStatus_fin, setStatus_config]
  refine statusBlind_ite (statusBlind_raiseCode .badField (by decide) k s) ?_
  exact statusBlind_endOk .heartbeat (setHeartbeat _ _ _ _ s)

theorem statusBlind_decodeCommErrorFields (k : Kind) (s : State) :
    StatusBlind fun st => decodeCommErrorFields k (setStatus st s) := by
  simp only [decodeCommErrorFields, setStatus_fin, setStatus_config]
  refine statusBlind_ite ?_ (statusBlind_raiseCode .badField (by decide) k s)
  exact statusBlind_endOk .commError (setCommError _ _ s)

/-- Every command other than NOP ends the same way whatever STATUS was. -/
theorem exec_statusBlind {i : Instr} (hi : i ≠ .nop) (s : State) :
    ∃ g, StatusBlind g ∧ ∀ st, exec i (setStatus st s) = .next (g st) := by
  cases i with
  | nop => exact absurd rfl hi
  | encHb => exact ⟨_, statusBlind_endOk .heartbeat (setFout (heartbeatFrame s) s), fun _ => rfl⟩
  | encCe => exact ⟨_, statusBlind_endOk .commError (setFout (commErrorFrame s) s), fun _ => rfl⟩
  | decHb =>
    refine ⟨_, ?_, fun _ => rfl⟩
    simp only [setStatus_fin, setStatus_config]
    refine statusBlind_ite (statusBlind_raiseCode .wrongLength (by decide) .none s) ?_
    refine statusBlind_ite (statusBlind_raiseCode .wrongIdentifier (by decide) .none s) ?_
    exact statusBlind_decodeHeartbeatFields .none s
  | decCe =>
    refine ⟨_, ?_, fun _ => rfl⟩
    simp only [setStatus_fin, setStatus_config]
    refine statusBlind_ite (statusBlind_raiseCode .wrongLength (by decide) .none s) ?_
    refine statusBlind_ite (statusBlind_raiseCode .wrongIdentifier (by decide) .none s) ?_
    exact statusBlind_decodeCommErrorFields .none s
  | dec =>
    refine ⟨_, ?_, fun _ => rfl⟩
    simp only [setStatus_fin, setStatus_config]
    split
    · exact statusBlind_raiseCode .unknownKind (by decide) .none s
    · exact statusBlind_raiseCode .reservedKind (by decide) .handbrake s
    · exact statusBlind_raiseCode .reservedKind (by decide) .encoderSpeed s
    · refine statusBlind_ite (statusBlind_raiseCode .wrongLength (by decide) .heartbeat s) ?_
      exact statusBlind_decodeHeartbeatFields .heartbeat s
    · refine statusBlind_ite (statusBlind_raiseCode .wrongLength (by decide) .commError s) ?_
      exact statusBlind_decodeCommErrorFields .commError s
  | extract off nb order sh w =>
    refine ⟨_, ?_, fun _ => rfl⟩
    simp only [setStatus_fin]
    refine statusBlind_ite (statusBlind_raiseCode .badDescriptor (by decide) .none s) ?_
    refine statusBlind_ite (statusBlind_raiseCode .wrongLength (by decide) .none s) ?_
    exact statusBlind_endOk .none (setXres _ s)
  | loop => exact ⟨_, statusBlind_endOk .none (setFin s.fout s), fun _ => rfl⟩

/-- The codes, kinds and STICKY of a `StatusWrite` (10_state R33): CODE and KIND do not depend on the STATUS before, a code other
than OK sets STICKY, and OK leaves it. -/
theorem StatusWrite.spec {f : Status → Status} (hf : StatusWrite f) (st st' : Status) :
    (f st').code = (f st).code ∧ (f st').kind = (f st).kind ∧
      ((f st).code ≠ 0 → (f st).sticky = true) ∧ ((f st).code = 0 → (f st).sticky = st.sticky) := by
  cases hf with
  | ok k => exact ⟨rfl, rfl, fun h => absurd rfl h, fun _ => rfl⟩
  | raised c hc k => exact ⟨rfl, rfl, fun _ => rfl, fun h => absurd (codeBits_inj (d := .ok) h) hc⟩

/-- Settles O47: NOP is the identity, and every other command ends the same way whatever STATUS was. -/
theorem statusWrittenAndNeverRead : Obligations.StatusWrittenAndNeverRead := by
  intro i s st
  by_cases hi : i = .nop
  · subst hi
    exact ⟨s, st, rfl, rfl, fun _ => rfl, fun h => absurd rfl h⟩
  · obtain ⟨g, ⟨u, f, hf, hg⟩, hexec⟩ := exec_statusBlind hi s
    have hrun : ∀ t, exec i (setStatus t s) = .next (setStatus (f t) u) := fun t => by rw [hexec, hg]
    exact ⟨setStatus (f s.status) u, f st, hrun s.status, hrun st, fun h => absurd h hi, fun _ => hf.spec s.status st⟩

end Sys2Proof.StateProofs

/-! PROOFS. The family 20_memory: the register window, unmapped offsets (R53), read-only registers and STATUS (R54), the payload
lanes (R55), and the registers that store the written word (R56). -/

namespace Sys2Proof.MemoryProofs

open Sys2Proof.Machine Sys2Proof.Safety

/-! ### Offsets: a register's and the unmapped ones -/

@[simp] theorem readOffset_offsetOf (r : WindowReg) (s : State) : readOffset (offsetOf r) s = readReg r s := by
  simp [readOffset]

@[simp] theorem writeOffset_offsetOf (r : WindowReg) (w : Word) (s : State) :
    writeOffset (offsetOf r) w s = writeReg r w s := by
  simp [writeOffset]

theorem readOffset_unmapped {off : Nat} (h : 0x44 ≤ off) (s : State) : readOffset off s = 0 := by
  simp [readOffset, regAt_unmapped h]

theorem writeOffset_unmapped {off : Nat} (h : 0x44 ≤ off) (w : Word) (s : State) : writeOffset off w s = s := by
  simp [writeOffset, regAt_unmapped h]

/-! ### The step of a defined host access that starts no command -/

/-- An access performed, in the words of the statements: the host's side moves on and the block keeps its state. -/
theorem accessDone_eq (rest : List HostInput) (s : State) : accessDone rest s = { s with host := hostAfter s rest [] } := by
  simp [accessDone, hostAfter]

section Step

variable {s : State} {rest : List HostInput} (hc : configValid s.config)
include hc

/-- A read answers the word at its offset and changes the host's side alone. -/
theorem step_read {off : Nat} (hlt : off < 256) (h4 : off % 4 = 0) (hp : ReadsNext s off rest) :
    step s = .next { s with host := hostAfter s rest [readOffset off s] } := by
  rw [step, nextAction_read hc hlt h4 hp]
  rfl

/-- A write elsewhere than to CMD stores, and does nothing else. -/
theorem step_write {off : Nat} {w : Word} (hlt : off < 256) (h4 : off % 4 = 0) (hcmd : regAt off ≠ some .cmd)
    (hp : WritesNext s off w rest) :
    step s = .next (writeOffset off w { s with host := hostAfter s rest [] }) := by
  rw [step, nextAction_write hc hlt h4 hp, hostWrite, if_neg hcmd, accessDone_eq]

theorem step_readReg (r : WindowReg) (hp : ReadsNext s (offsetOf r) rest) :
    step s = .next { s with host := hostAfter s rest [readReg r s] } := by
  obtain ⟨hlt, h4⟩ := offsetOf_lt r
  rw [step_read hc hlt h4 hp, readOffset_offsetOf]

theorem step_writeReg (r : WindowReg) (hr : r ≠ .cmd) {w : Word} (hp : WritesNext s (offsetOf r) w rest) :
    step s = .next (writeReg r w { s with host := hostAfter s rest [] }) := by
  obtain ⟨hlt, h4⟩ := offsetOf_lt r
  rw [step_write hc hlt h4 (by simpa using hr) hp, writeOffset_offsetOf]

end Step

/-! ### What a written STATUS word does (10_state R30) -/

/-- A STATUS write in the arithmetic of R30: STICKY falls exactly when bit 8 of the word is 1, and nothing else changes. -/
theorem statusWritten_eq (w : Word) (t : Status) :
    statusWritten w t = { t with sticky := if w.toNat / 2 ^ 8 % 2 = 1 then false else t.sticky } := by
  have hbit : w.getLsbD 8 = true ↔ w.toNat / 2 ^ 8 % 2 = 1 := by
    simp [BitVec.getLsbD, Nat.testBit_eq_decide_div_mod_eq]
  simp only [statusWritten, hbit]
  split <;> rfl

/-! ### The lanes of a payload register (20_memory R55) -/

/-- The four lanes of a word are its bytes in little-endian order. -/
theorem withLanes_eq_putBytes (p : Payload) (off : Nat) (w : Word) :
    withLanes p off w = putBytes p off (leBytes w.toNat 4) := by
  simp [withLanes, leBytes, BitVec.extractLsb', Nat.shiftRight_eq_div_pow, Nat.div_div_eq_div_mul]

/-- Byte `i` of the little-endian bytes of a value. -/
theorem leBytes_getD_toNat {n i : Nat} (hi : i < n) (v : Nat) : ((leBytes v n).getD i 0).toNat = v / 256 ^ i % 256 := by
  induction n generalizing v i with
  | zero => omega
  | succ n ih =>
    cases i with
    | zero => simp [leBytes]
    | succ i =>
      simp only [leBytes, List.getD_cons_succ]
      rw [ih (by omega), Nat.div_div_eq_div_mul, Nat.pow_succ']

/-- Every byte of a payload after a payload register has been written: the four in its lanes are new, the others are kept. -/
theorem payByte_withLanes_toNat (p : Payload) (off : Nat) (w : Word) {k : Nat} (hk : k < 8) :
    (payByte (withLanes p off w) k).toNat =
      if off ≤ k ∧ k < off + 4 then w.toNat / 256 ^ (k - off) % 256 else (payByte p k).toNat := by
  rw [withLanes_eq_putBytes, payByte_putBytes _ _ _ _ hk, leBytes_length]
  split
  · exact leBytes_getD_toNat (by omega) _
  · rfl

/-- Lane `k` of a payload register reads as byte `off + k` of the payload. -/
theorem lanesOf_toNat_lane (p : Payload) (off : Nat) {k : Nat} (hk : k < 4) :
    (lanesOf p off).toNat / 256 ^ k % 256 = (payByte p (off + k)).toNat := by
  have h0 := (payByte p off).isLt
  have h1 := (payByte p (off + 1)).isLt
  have h2 := (payByte p (off + 2)).isLt
  have h3 := (payByte p (off + 3)).isLt
  rw [lanesOf_toNat]
  interval_cases k
  · simp only [Nat.add_zero]
    omega
  all_goals omega

/-! ### The obligations -/

/-- Settles O17: offsets from 0x44 up are no register, so a read finds 0 and a write finds nothing to change. -/
theorem unmappedOffsetsReadZero : Obligations.UnmappedOffsetsReadZero := by
  intro s rest off hc hlow hhigh h4
  have hlt : off < 256 := by omega
  refine ⟨fun hp => ?_, fun w hp => ?_⟩
  · rw [step_read hc hlt h4 hp, readOffset_unmapped hlow]
  · have hcmd : regAt off ≠ some .cmd := by simp [regAt_unmapped hlow]
    rw [step_write hc hlt h4 hcmd hp, writeOffset_unmapped hlow]

/-- Settles O18: a write to one of the five read-only registers stores nothing, and one to STATUS is `statusWritten`. -/
theorem readOnlyRegistersIgnoreWrites : Obligations.ReadOnlyRegistersIgnoreWrites := by
  intro s rest off w hc hp
  refine ⟨fun hoff => ?_, ?_⟩
  · simp only [List.mem_cons, List.not_mem_nil, or_false] at hoff
    rcases hoff with rfl | rfl | rfl | rfl | rfl
    · exact step_writeReg hc .foutId (by decide) hp
    · exact step_writeReg hc .foutLen (by decide) hp
    · exact step_writeReg hc .foutPay0 (by decide) hp
    · exact step_writeReg hc .foutPay1 (by decide) hp
    · exact step_writeReg hc .xres (by decide) hp
  · rintro rfl
    rw [step_writeReg hc .status (by decide) hp, ← statusWritten_eq]
    rfl

/-- Settles O19: a write replaces the four bytes of its lanes and keeps the other four, and a read finds each byte in its lane. -/
theorem payloadLanes : Obligations.PayloadLanes := by
  intro s rest hc
  refine ⟨fun w hp => ?_, fun w hp => ?_, fun off hoff hp => ?_⟩
  · refine ⟨_, step_writeReg hc .finPay0 (by decide) hp, rfl, fun k hk => ?_⟩
    simpa [finByte, writeReg] using payByte_withLanes_toNat s.fin.pay 0 w hk
  · refine ⟨_, step_writeReg hc .finPay1 (by decide) hp, rfl, fun k hk => ?_⟩
    refine (payByte_withLanes_toNat s.fin.pay 4 w hk).trans ?_
    by_cases hlow : k < 4
    · rw [if_neg (by omega), if_pos hlow]
      rfl
    · rw [if_pos (by omega), if_neg hlow]
  · simp only [List.mem_cons, List.not_mem_nil, or_false] at hoff
    rcases hoff with rfl | rfl | rfl | rfl
    · exact ⟨_, step_readReg hc .finPay0 hp, fun k hk => lanesOf_toNat_lane s.fin.pay 0 hk⟩
    · exact ⟨_, step_readReg hc .finPay1 hp, fun k hk => lanesOf_toNat_lane s.fin.pay 4 hk⟩
    · exact ⟨_, step_readReg hc .foutPay0 hp, fun k hk => lanesOf_toNat_lane s.fout.pay 0 hk⟩
    · exact ⟨_, step_readReg hc .foutPay1 hp, fun k hk => lanesOf_toNat_lane s.fout.pay 4 hk⟩

/-- Settles O20: each offset is a register whose write stores the word, FIN_LEN its low byte. -/
theorem registerWritesStoreTheWord : Obligations.RegisterWritesStoreTheWord := by
  intro s rest off w hc hp
  refine ⟨?_, ?_, ?_, ?_, ?_, ?_, ?_, ?_⟩ <;> rintro rfl
  · exact ⟨w.setWidth 8, BitVec.toNat_setWidth 8 w, step_writeReg hc .finLen (by decide) hp⟩
  · exact step_writeReg hc .finId (by decide) hp
  · exact step_writeReg hc .fwd (by decide) hp
  · exact step_writeReg hc .rev (by decide) hp
  · exact step_writeReg hc .dir (by decide) hp
  · exact step_writeReg hc .sig (by decide) hp
  · exact step_writeReg hc .sys (by decide) hp
  · exact step_writeReg hc .millis (by decide) hp

end Sys2Proof.MemoryProofs

/-! PROOFS. The family 30_encoding: the STATUS word (R88), Classify (R79), and Pack byte by byte and bit by bit (R78). -/

namespace Sys2Proof.EncodingProofs

open Sys2Proof.Machine

/-! ### The STATUS word (30_encoding R88) -/

/-- The STATUS word as a number: CODE from bit 0, KIND from bit 4, STICKY at bit 8. -/
theorem statusWord_toNat (t : Status) :
    (statusWord t).toNat = t.code.toNat + 2 ^ 4 * t.kind.toNat + 2 ^ 8 * (if t.sticky then 1 else 0) := by
  have hcode := t.code.isLt
  have hkind := t.kind.isLt
  simp only [statusWord, BitVec.toNat_setWidth, append_toNat, BitVec.toNat_ofBool]
  cases t.sticky <;> simp <;> omega

/-- Settles O21: the layout as a sum, and the two words of the rule by evaluation. -/
theorem statusWordLayout : Obligations.StatusWordLayout :=
  ⟨statusWord_toNat, by decide, by decide⟩

/-! ### Classify (30_encoding R79) -/

/-- The identifier `id` stands for the kind `k`: it is that kind's parameter, or for NONE none of the four. -/
def StandsFor (c : Config) (id : Word) : Kind → Prop
  | .heartbeat => id = c.idHeartbeat
  | .commError => id = c.idCommError
  | .handbrake => id = c.idHandbrake
  | .encoderSpeed => id = c.idEncoderSpeed
  | .none => ∀ k ∈ [c.idHeartbeat, c.idCommError, c.idHandbrake, c.idEncoderSpeed], id ≠ k

/-- The kind Classify answers is one that the identifier stands for; this needs no constraint on the parameters. -/
theorem standsFor_classify (c : Config) (id : Word) : StandsFor c id (classify c id) := by
  unfold classify
  split_ifs with hheartbeat hcomm hhandbrake hspeed
  · exact hheartbeat
  · exact hcomm
  · exact hhandbrake
  · exact hspeed
  · simp [StandsFor, *]

/-- Classify answers a kind that the identifier stands for. The parameters must differ (00_scope R8): the comparisons before the one
that succeeds then fail. -/
theorem classify_eq_of_standsFor {c : Config} (hc : configValid c) {id : Word} {k : Kind} (h : StandsFor c id k) :
    classify c id = k := by
  obtain ⟨hnodup, -⟩ := hc
  simp only [List.nodup_cons, List.mem_cons, List.not_mem_nil, or_false, not_or] at hnodup
  obtain ⟨⟨hHC, hHB, hHS⟩, ⟨hCB, hCS⟩, hBS, -⟩ := hnodup
  cases k with
  | none =>
    simp only [StandsFor, List.forall_mem_cons] at h
    obtain ⟨hH, hC, hB, hS, -⟩ := h
    simp [classify, hH, hC, hB, hS]
  | heartbeat => simp [classify, show id = _ from h]
  | commError => simp [classify, show id = _ from h, Ne.symm hHC]
  | handbrake => simp [classify, show id = _ from h, Ne.symm hHB, Ne.symm hCB]
  | encoderSpeed => simp [classify, show id = _ from h, Ne.symm hHS, Ne.symm hCS, Ne.symm hBS]

theorem classify_eq_iff {c : Config} (hc : configValid c) (id : Word) (k : Kind) :
    classify c id = k ↔ StandsFor c id k :=
  ⟨fun h => h ▸ standsFor_classify c id, classify_eq_of_standsFor hc⟩

/-- Settles O32: each of its five clauses is `StandsFor` at one kind. -/
theorem classifyNamesTheKind : Obligations.ClassifyNamesTheKind := fun _ id hc =>
  ⟨classify_eq_iff hc id .heartbeat, classify_eq_iff hc id .commError, classify_eq_iff hc id .handbrake,
    classify_eq_iff hc id .encoderSpeed, classify_eq_iff hc id .none⟩

/-! ### Pack (30_encoding R78) -/

@[simp] theorem mask_testBit (w i : Nat) : (mask w).testBit i = decide (i < w) := Nat.testBit_two_pow_sub_one w i

/-- Bit `m` of `raw'`: in the field a bit of the value, elsewhere the bit of `raw`. -/
theorem packedRaw_testBit (raw : Nat) (d : Descriptor) (v : Word) {m : Nat} (hm : m < 8 * d.nb) :
    (packedRaw raw d v).toNat.testBit m =
      if d.shift ≤ m ∧ m < d.shift + d.width then v.toNat.testBit (m - d.shift) else raw.testBit m := by
  rw [BitVec.testBit_toNat]
  simp only [packedRaw, BitVec.getLsbD_or, BitVec.getLsbD_and, BitVec.getLsbD_not, BitVec.getLsbD_shiftLeft,
    BitVec.getLsbD_ofNat, mask_testBit, Nat.testBit_mod_two_pow]
  have hsub : m - d.shift < 8 * d.nb := by omega
  by_cases hlow : m < d.shift
  · simp [*]
  · have hle : d.shift ≤ m := by omega
    by_cases hfield : m - d.shift < d.width
    · have hhigh : m < d.shift + d.width := by omega
      simp [*]
    · have hhigh : ¬ m < d.shift + d.width := by omega
      simp [*]

/-- Pack leaves the bytes outside the descriptor's. -/
theorem payByte_pack_of_outside (p : Payload) {d : Descriptor} (v : Word) {k : Nat} (hk : k < 8)
    (hout : k < d.off ∨ d.off + d.nb ≤ k) :
    payByte (pack p d v) k = payByte p k := by
  rw [pack, payByte_putBytes _ _ _ _ hk, splitBytes_length, if_neg (by omega)]

/-- The descriptor's bytes after Pack, assembled in its order, are `raw'`. -/
theorem assemble_pack (p : Payload) {d : Descriptor} (v : Word) (hoff : d.off + d.nb ≤ cap) :
    assemble d.order (payBytes (pack p d v) d.off d.nb) =
      (packedRaw (assemble d.order (payBytes p d.off d.nb)) d v).toNat := by
  generalize hraw : packedRaw (assemble d.order (payBytes p d.off d.nb)) d v = raw'
  have hbytes : payBytes (pack p d v) d.off d.nb = splitBytes d.order raw'.toNat d.nb := by
    have h := payBytes_putBytes p d.off (splitBytes d.order raw'.toNat d.nb)
    rw [splitBytes_length] at h
    rw [pack, hraw, h hoff]
  rw [hbytes, assemble_splitBytes, show 256 = 2 ^ 8 from rfl, ← Nat.pow_mul, Nat.mod_eq_of_lt raw'.isLt]

/-- Settles O41: bytes outside the descriptor are not put, and those inside assemble to `raw'`, whose bits are known. -/
theorem packWritesExactlyTheField : Obligations.PackWritesExactlyTheField := by
  intro p d v hd
  obtain ⟨hoff, -⟩ : d.off + d.nb ≤ cap ∧ d.shift + d.width ≤ 8 * d.nb := by simpa [descriptorValid] using hd
  refine ⟨fun k hk hout => payByte_pack_of_outside p v hk hout, fun m hm => ?_⟩
  rw [assemble_pack p v hoff, packedRaw_testBit _ d v hm]

end Sys2Proof.EncodingProofs

/-! PROOFS. The family 40_encoder: the heartbeat frame (R111), the comm-error frame (R112), and what the encode commands read and write
(R110). -/

namespace Sys2Proof.EncoderProofs

open Sys2Proof.Machine Sys2Proof.Safety Sys2Proof.StateProofs Sys2Proof.MemoryProofs Sys2Proof.EncodingProofs

/-! ### The next state of an encode command (40_encoder R110) -/

theorem exec_encHb (s : State) :
    exec .encHb s = .next { s with fout := heartbeatFrame s, status := okStatus s 1 } := rfl

theorem exec_encCe (s : State) :
    exec .encCe s = .next { s with fout := commErrorFrame s, status := okStatus s 2 } := rfl

theorem heartbeatFrame_congr {s u : State} (hconfig : s.config = u.config) (hfwd : s.fwd = u.fwd) (hrev : s.rev = u.rev)
    (hdir : s.dir = u.dir) (hsig : s.sig = u.sig) : heartbeatFrame s = heartbeatFrame u := by
  simp only [heartbeatFrame, hconfig, hfwd, hrev, hdir, hsig]

theorem commErrorFrame_congr {s u : State} (hconfig : s.config = u.config) (hsys : s.sys = u.sys)
    (hmillis : s.millis = u.millis) : commErrorFrame s = commErrorFrame u := by
  simp only [commErrorFrame, hconfig, hsys, hmillis]

/-! ### The bytes of the two frames -/

/-- Bytes put at the front of the zero payload, and the zeros after them. -/
theorem payByte_putBytes_zeroPayload (bs : List Byte) {k : Nat} (hk : k < 8) :
    payByte (putBytes zeroPayload 0 bs) k = bs.getD k 0 := by
  by_cases hlen : k < bs.length
  · rw [payByte_putBytes _ _ _ _ hk, if_pos (by omega), Nat.sub_zero]
  · rw [payByte_putBytes_zeroPayload_of_length_le hk (by omega), List.getD_eq_default _ _ (by omega)]

theorem payByte_heartbeatFrame (s : State) {k : Nat} (hk : k < 8) :
    payByte (heartbeatFrame s).pay k =
      [s.fwd.setWidth 8, s.rev.setWidth 8, heartbeatByte2 s.config s.dir s.sig].getD k 0 :=
  payByte_putBytes_zeroPayload _ hk

theorem payByte_commErrorFrame (s : State) {k : Nat} (hk : k < 8) :
    payByte (commErrorFrame s).pay k = (s.sys.setWidth 8 :: splitBytes s.config.ceOrder s.millis.toNat 4).getD k 0 :=
  payByte_putBytes_zeroPayload _ hk

theorem payByte_heartbeatFrame_of_len_le (s : State) {k : Nat} (hk : k < 8) (h : (heartbeatFrame s).len.toNat ≤ k) :
    payByte (heartbeatFrame s).pay k = 0 :=
  payByte_putBytes_zeroPayload_of_length_le hk h

theorem payByte_commErrorFrame_of_len_le (s : State) {k : Nat} (hk : k < 8) (h : (commErrorFrame s).len.toNat ≤ k) :
    payByte (commErrorFrame s).pay k = 0 :=
  by
  have hlen : (s.sys.setWidth 8 :: splitBytes s.config.ceOrder s.millis.toNat 4).length = 5 := by simp
  exact payByte_putBytes_zeroPayload_of_length_le hk (hlen.trans_le h)

/-- Settles O27: the frame each encoder writes is a function of its kind's fields and the parameters. -/
theorem encodersReadOnlyTheirFields : Obligations.EncodersReadOnlyTheirFields := by
  intro s u hconfig
  constructor
  · intro hfwd hrev hdir hsig
    refine ⟨heartbeatFrame s, exec_encHb s, ?_, fun k hlen hk => payByte_heartbeatFrame_of_len_le s hk hlen⟩
    rw [heartbeatFrame_congr hconfig hfwd hrev hdir hsig, exec_encHb]
  · intro hsys hmillis
    refine ⟨commErrorFrame s, exec_encCe s, ?_, fun k hlen hk => payByte_commErrorFrame_of_len_le s hk hlen⟩
    rw [commErrorFrame_congr hconfig hsys hmillis, exec_encCe]

/-! ### ENC.CE (40_encoder R112) -/

/-- In the order BE the byte of weight `256 ^ k` stands `k` places before the last. -/
theorem splitBytes_be_getD (v : Nat) {n k : Nat} (hk : k < n) :
    (splitBytes .be v n).getD (n - 1 - k) 0 = (leBytes v n).getD k 0 := by
  have hlen : n - 1 - k < (leBytes v n).length := by rw [leBytes_length]; omega
  rw [splitBytes, List.getD, List.getElem?_reverse hlen, leBytes_length, show n - 1 - (n - 1 - k) = k by omega, List.getD]

/-- Settles O25: the payload is SYS's low byte, then the bytes of MILLIS in the order CE_ORDER. -/
theorem encCeWritesCommErrorFrame : Obligations.EncCeWritesCommErrorFrame := by
  refine ⟨rfl, fun s => ⟨_, exec_encCe s, rfl, rfl, rfl, ?_, fun horder k hk => ?_, fun horder k hk => ?_,
    fun k hlen hk => ?_⟩⟩
  · rw [foutByte, payByte_commErrorFrame s (by decide)]
    exact BitVec.toNat_setWidth 8 s.sys
  · rw [foutByte, payByte_commErrorFrame s (by omega), horder, Nat.add_comm, List.getD_cons_succ]
    exact leBytes_getD_toNat hk _
  · rw [foutByte, payByte_commErrorFrame s (by omega), horder, show 4 - k = (4 - 1 - k) + 1 by omega, List.getD_cons_succ,
      splitBytes_be_getD _ hk]
    exact leBytes_getD_toNat hk _
  · exact congrArg BitVec.toNat (payByte_commErrorFrame_of_len_le s hk hlen)

/-! ### ENC.HB (40_encoder R111) -/

/-- Byte 2 as a number: with SIG_SHIFT in 2 to 6 (00_scope R8) the two sub-fields neither overlap nor leave the byte. -/
theorem heartbeatByte2_toNat {c : Config} (hlow : 2 ≤ c.sigShift) (hhigh : c.sigShift ≤ 6) (dir sig : Word) :
    (heartbeatByte2 c dir sig).toNat = dir.toNat % 2 ^ 2 + sig.toNat % 2 ^ 2 * 2 ^ c.sigShift := by
  have hdir : dir.toNat % 2 ^ 2 < 2 ^ c.sigShift :=
    (Nat.mod_lt _ (by decide)).trans_le (Nat.pow_le_pow_right (by decide) hlow)
  have hsig : sig.toNat % 2 ^ 2 * 2 ^ c.sigShift < 2 ^ 8 := by
    calc sig.toNat % 2 ^ 2 * 2 ^ c.sigShift
        ≤ 3 * 2 ^ 6 := Nat.mul_le_mul (by omega) (Nat.pow_le_pow_right (by decide) hhigh)
      _ < 2 ^ 8 := by decide
  have hmod (n : Nat) : n % 2 ^ 2 % 2 ^ 8 = n % 2 ^ 2 := by omega
  simp only [heartbeatByte2, BitVec.toNat_or, BitVec.toNat_shiftLeft, BitVec.toNat_setWidth, hmod]
  rw [Nat.shiftLeft_eq, Nat.mod_eq_of_lt hsig, ← Nat.shiftLeft_eq, Nat.or_comm, ← Nat.shiftLeft_add_eq_or_of_lt hdir,
    Nat.shiftLeft_eq, Nat.add_comm]

/-- Bit by bit, byte 2 is the direction below SIG_SHIFT and the signals from SIG_SHIFT on. -/
theorem heartbeatByte2_getLsbD {c : Config} (hlow : 2 ≤ c.sigShift) (dir sig : Word) {m : Nat} (hm : m < 8) :
    (heartbeatByte2 c dir sig).getLsbD m =
      if c.sigShift ≤ m ∧ m < c.sigShift + 2 then sig.getLsbD (m - c.sigShift)
      else if m < 2 then dir.getLsbD m else false := by
  simp only [heartbeatByte2, BitVec.getLsbD_or, BitVec.getLsbD_shiftLeft, BitVec.getLsbD_setWidth]
  by_cases hsig : c.sigShift ≤ m
  · have hdir : ¬ m < 2 := by omega
    have hoff : m - c.sigShift < 8 := by omega
    by_cases hin : m < c.sigShift + 2
    · have hwidth : m - c.sigShift < 2 := by omega
      simp [*]
    · have hwidth : ¬ m - c.sigShift < 2 := by omega
      simp [*]
  · by_cases hdir : m < 2 <;> simp [*]

/-- Pack of a field of one byte, bit by bit: in the field a bit of the value, elsewhere the byte's own. -/
theorem payByte_pack_getLsbD {off sh w : Nat} (hoff : off < 8) (p : Payload) (v : Word) {m : Nat} (hm : m < 8) :
    (payByte (pack p ⟨off, 1, .le, sh, w⟩ v) off).getLsbD m =
      if sh ≤ m ∧ m < sh + w then v.getLsbD (m - sh) else (payByte p off).getLsbD m := by
  have hbyte (q : Payload) : (assemble .le (payBytes q off 1)).testBit m = (payByte q off).getLsbD m := by
    rw [assemble_testBit .le q off 1 m hm, Nat.div_eq_of_lt hm, Nat.mod_eq_of_lt hm, Nat.add_zero]
  have hpack := assemble_pack p (d := ⟨off, 1, .le, sh, w⟩) v hoff
  rw [← hbyte, ← hbyte, hpack, packedRaw_testBit _ _ _ hm]
  rfl

theorem packKind_heartbeat (s : State) (p : Payload) :
    packKind .heartbeat s p =
      pack (pack (pack (pack p ⟨0, 1, .le, 0, 8⟩ s.fwd) ⟨1, 1, .le, 0, 8⟩ s.rev) ⟨2, 1, .le, 0, 2⟩ s.dir)
        ⟨2, 1, .le, s.config.sigShift, 2⟩ s.sig := rfl

/-- Pack of a field of one byte leaves every other byte. -/
theorem payByte_pack_of_ne {off sh w k : Nat} (hk : k < 8) (p : Payload) (v : Word) (h : k ≠ off) :
    payByte (pack p ⟨off, 1, .le, sh, w⟩ v) k = payByte p k :=
  payByte_pack_of_outside p v hk (by simp only; omega)

theorem payByte_pack_wholeByte {off : Nat} (hoff : off < 8) (p : Payload) (v : Word) :
    payByte (pack p ⟨off, 1, .le, 0, 8⟩ v) off = v.setWidth 8 := by
  apply BitVec.eq_of_getLsbD_eq
  intro m hm
  rw [payByte_pack_getLsbD hoff p v hm, if_pos (by omega), BitVec.getLsbD_setWidth, decide_eq_true hm, Bool.true_and,
    Nat.sub_zero]

theorem payByte_pack_dir_sig {s : State} (hlow : 2 ≤ s.config.sigShift) {p : Payload} (hp : payByte p 2 = 0) :
    payByte (pack (pack p ⟨2, 1, .le, 0, 2⟩ s.dir) ⟨2, 1, .le, s.config.sigShift, 2⟩ s.sig) 2 =
      heartbeatByte2 s.config s.dir s.sig := by
  apply BitVec.eq_of_getLsbD_eq
  intro m hm
  rw [payByte_pack_getLsbD (by decide) _ _ hm, payByte_pack_getLsbD (by decide) _ _ hm, hp,
    heartbeatByte2_getLsbD hlow _ _ hm]
  simp

/-- The heartbeat rows packed into the zero payload, byte by byte. -/
theorem payByte_packKind_heartbeat {s : State} (hlow : 2 ≤ s.config.sigShift) {k : Nat} (hk : k < 8) :
    payByte (packKind .heartbeat s zeroPayload) k =
      [s.fwd.setWidth 8, s.rev.setWidth 8, heartbeatByte2 s.config s.dir s.sig].getD k 0 := by
  rw [packKind_heartbeat]
  match k with
  | 0 => simp [payByte_pack_of_ne, payByte_pack_wholeByte]
  | 1 => simp [payByte_pack_of_ne, payByte_pack_wholeByte]
  | 2 => exact payByte_pack_dir_sig hlow (by simp [payByte_pack_of_ne])
  | k + 3 => simp [payByte_pack_of_ne hk]

/-- Settles O24: byte 2 is the sum of its two sub-fields, and the payload agrees with the packed one byte by byte. -/
theorem encHbWritesHeartbeatFrame : Obligations.EncHbWritesHeartbeatFrame := by
  refine ⟨rfl, fun s hc => ?_⟩
  obtain ⟨-, hlow, hhigh, -⟩ := hc
  refine ⟨_, exec_encHb s, rfl, rfl, rfl, ?_, ?_, ?_, fun k hlen hk => ?_, ?_⟩
  · rw [foutByte, payByte_heartbeatFrame s (by decide)]
    exact BitVec.toNat_setWidth 8 s.fwd
  · rw [foutByte, payByte_heartbeatFrame s (by decide)]
    exact BitVec.toNat_setWidth 8 s.rev
  · rw [foutByte, payByte_heartbeatFrame s (by decide)]
    exact heartbeatByte2_toNat hlow hhigh s.dir s.sig
  · exact congrArg BitVec.toNat (payByte_heartbeatFrame_of_len_le s hk hlen)
  · exact payload_ext fun k hk => (payByte_heartbeatFrame s hk).trans (payByte_packKind_heartbeat hlow hk).symm

end Sys2Proof.EncoderProofs

/-! PROOFS. The family 41_decoder: what DEC.HB (R132), DEC.CE (R133) and DEC (R134) check and write, the round-trip laws (R135),
and the reserved bits of heartbeat byte 2 (R137). -/

namespace Sys2Proof.DecoderProofs

open Sys2Proof.Machine Sys2Proof.Safety Sys2Proof.EncodingProofs Sys2Proof.EncoderProofs

/-! ### The sub-fields of heartbeat byte 2 (41_decoder R132) -/

theorem directionOf_toNat (b : Byte) : (directionOf b).toNat = b.toNat % 4 := by
  simp [directionOf, BitVec.extractLsb'_toNat]

theorem signalsOf_toNat (c : Config) (b : Byte) : (signalsOf c b).toNat = b.toNat / 2 ^ c.sigShift % 4 := by
  simp [signalsOf, BitVec.extractLsb'_toNat, Nat.shiftRight_eq_div_pow]

theorem directionOf_getLsbD (b : Byte) {j : Nat} (hj : j < 2) : (directionOf b).getLsbD j = b.getLsbD j := by
  rw [directionOf, BitVec.getLsbD_extractLsb', decide_eq_true hj, Bool.true_and, Nat.zero_add]

theorem signalsOf_getLsbD (c : Config) (b : Byte) {j : Nat} (hj : j < 2) :
    (signalsOf c b).getLsbD j = b.getLsbD (c.sigShift + j) := by
  rw [signalsOf, BitVec.getLsbD_extractLsb', decide_eq_true hj, Bool.true_and, Nat.zero_add, BitVec.getLsbD_ushiftRight]

theorem directionOf_eq_three_iff (b : Byte) : directionOf b = 3 ↔ b.toNat % 4 = 3 := by
  rw [← BitVec.toNat_inj, directionOf_toNat]
  rfl

/-! ### Unpack of the heartbeat rows (30_encoding R76, R77) -/

/-- Unpack of a field of one byte, as a number. -/
theorem unpack_oneByte_toNat (p : Payload) (off sh : Nat) {w : Nat} (hw : w ≤ 32) :
    (unpack p ⟨off, 1, .le, sh, w⟩).toNat = (payByte p off).toNat / 2 ^ sh % 2 ^ w := by
  have hbyte : assemble .le (payBytes p off 1) = (payByte p off).toNat := by simp [assemble, payBytes, leValue]
  rw [unpack, fieldOf_toNat _ _ _ hw, hbyte]

theorem unpack_wholeByte_toNat (p : Payload) (off : Nat) :
    (unpack p ⟨off, 1, .le, 0, 8⟩).toNat = (payByte p off).toNat := by
  rw [unpack_oneByte_toNat p off 0 (by decide), Nat.pow_zero, Nat.div_one, Nat.mod_eq_of_lt (payByte p off).isLt]

/-! ### The field checks and writes (41_decoder R132, R133) -/

/-- From "b2 = FIN.PAY[2]" on, DEC.HB and DEC do what R132 says. -/
theorem heartbeatDecoded_decodeHeartbeatFields (k : Kind) (s : State) :
    HeartbeatDecoded (kindBits k) s (decodeHeartbeatFields k s) := by
  unfold HeartbeatDecoded decodeHeartbeatFields
  simp only [directionOf_eq_three_iff, finByte]
  split
  · rfl
  · have hwiden {w : Nat} (b : BitVec w) (hw : w ≤ 32) : (b.setWidth 32).toNat = b.toNat := BitVec.toNat_setWidth_of_le hw
    exact ⟨rfl, hwiden _ (by decide), hwiden _ (by decide), (hwiden _ (by decide)).trans (directionOf_toNat _),
      (hwiden _ (by decide)).trans (signalsOf_toNat _ _)⟩

/-- The fields of a heartbeat that decoded with OK are Unpack of the layout rows (30_encoding R76). -/
theorem fields_eq_unpack_of_heartbeatDecoded {k : BitVec 3} {s t : State} (h : HeartbeatDecoded k s t)
    (hok : t.status.code = 0) :
    t.fwd = unpack s.fin.pay ⟨0, 1, .le, 0, 8⟩ ∧ t.rev = unpack s.fin.pay ⟨1, 1, .le, 0, 8⟩ ∧
      t.dir = unpack s.fin.pay ⟨2, 1, .le, 0, 2⟩ ∧ t.sig = unpack s.fin.pay ⟨2, 1, .le, s.config.sigShift, 2⟩ := by
  unfold HeartbeatDecoded at h
  split at h
  · subst h
    exact absurd hok (by simp [failed])
  · obtain ⟨-, hfwd, hrev, hdir, hsig⟩ := h
    refine ⟨?_, ?_, ?_, ?_⟩ <;> apply BitVec.eq_of_toNat_eq
    · rw [hfwd, unpack_wholeByte_toNat, finByte]
    · rw [hrev, unpack_wholeByte_toNat, finByte]
    · rw [hdir, unpack_oneByte_toNat _ _ _ (by decide), Nat.pow_zero, Nat.div_one]
      rfl
    · rw [hsig, unpack_oneByte_toNat _ _ _ (by decide)]
      rfl

/-- The four bytes of millisSinceLast as a number, in either order (00_scope R14). -/
theorem assemble_four_bytes (o : ByteOrder) (p : Payload) (off : Nat) :
    assemble o (payBytes p off 4) =
      match o with
      | .le => (payByte p off).toNat + 2 ^ 8 * (payByte p (off + 1)).toNat + 2 ^ 16 * (payByte p (off + 2)).toNat +
          2 ^ 24 * (payByte p (off + 3)).toNat
      | .be => (payByte p (off + 3)).toNat + 2 ^ 8 * (payByte p (off + 2)).toNat + 2 ^ 16 * (payByte p (off + 1)).toNat +
          2 ^ 24 * (payByte p off).toNat := by
  cases o <;> simp [assemble, payBytes, leValue, List.range_succ] <;> omega

theorem assemble_lt (o : ByteOrder) (bs : List Byte) : assemble o bs < 256 ^ bs.length := by
  cases o with
  | le => exact leValue_lt bs
  | be => simpa only [assemble, List.length_reverse] using leValue_lt bs.reverse

/-- From "sy = FIN.PAY[0]" on, DEC.CE and DEC do what R133 says. -/
theorem commErrorDecoded_decodeCommErrorFields (k : Kind) (s : State) :
    CommErrorDecoded (kindBits k) s (decodeCommErrorFields k s) := by
  have hvalid : systemIdValid s.config (payByte s.fin.pay 0) = true ↔ payByte s.fin.pay 0 ∈ s.config.systemIds := by
    simp [systemIdValid]
  unfold CommErrorDecoded decodeCommErrorFields
  simp only [hvalid, ite_not]
  split
  · have hmillis := assemble_lt s.config.ceOrder (payBytes s.fin.pay 1 4)
    rw [payBytes_length] at hmillis
    refine ⟨rfl, ?_, ?_⟩
    · exact BitVec.toNat_setWidth_of_le (by decide)
    · exact (Nat.mod_eq_of_lt hmillis).trans (assemble_four_bytes s.config.ceOrder s.fin.pay 1)
  · rfl

/-! ### DEC.HB and DEC.CE: length, identifier, field range (41_decoder R131) -/

theorem ne_hbLen_iff (n : Byte) : n ≠ hbLen ↔ n.toNat ≠ 3 := not_congr BitVec.toNat_inj.symm

theorem ne_ceLen_iff (n : Byte) : n ≠ ceLen ↔ n.toNat ≠ 5 := not_congr BitVec.toNat_inj.symm

/-- Settles O29: the length and identifier checks in the order of the pseudocode, then the field check, whose fields are Unpack of
the layout rows. -/
theorem decHbChecksThenWritesFields : Obligations.DecHbChecksThenWritesFields := by
  refine ⟨rfl, fun s => ⟨_, rfl, ?_⟩⟩
  simp only [ne_hbLen_iff]
  split
  · rfl
  · split
    · rfl
    · have hdecoded := heartbeatDecoded_decodeHeartbeatFields .none s
      exact ⟨hdecoded, fields_eq_unpack_of_heartbeatDecoded hdecoded⟩

/-- Settles O30: the length and identifier checks in the order of the pseudocode, then the field check. -/
theorem decCeChecksThenWritesFields : Obligations.DecCeChecksThenWritesFields := by
  refine ⟨rfl, fun s => ⟨_, rfl, ?_⟩⟩
  simp only [ne_ceLen_iff]
  split
  · rfl
  · split
    · rfl
    · exact commErrorDecoded_decodeCommErrorFields .none s

/-! ### A frame whose identifier is known (41_decoder R134) -/

/-- What is left of DEC.HB and of DEC once FIN.ID is known to be the heartbeat's; `k` is the kind a failure reports. -/
def decodeHeartbeatFrame (k : Kind) (s : State) : State :=
  if s.fin.len ≠ hbLen then raiseCode .wrongLength k s else decodeHeartbeatFields k s

/-- What is left of DEC.CE and of DEC once FIN.ID is known to be the comm error's; `k` is the kind a failure reports. -/
def decodeCommErrorFrame (k : Kind) (s : State) : State :=
  if s.fin.len ≠ ceLen then raiseCode .wrongLength k s else decodeCommErrorFields k s

/-- The length check, then the field check. -/
theorem decodeHeartbeatFrame_spec (k : Kind) (s : State) :
    if s.fin.len.toNat ≠ 3 then decodeHeartbeatFrame k s = failed s 1 (kindBits k)
    else HeartbeatDecoded (kindBits k) s (decodeHeartbeatFrame k s) := by
  simp only [decodeHeartbeatFrame, ne_hbLen_iff]
  split
  · rfl
  · exact heartbeatDecoded_decodeHeartbeatFields k s

/-- The length check, then the field check. -/
theorem decodeCommErrorFrame_spec (k : Kind) (s : State) :
    if s.fin.len.toNat ≠ 5 then decodeCommErrorFrame k s = failed s 1 (kindBits k)
    else CommErrorDecoded (kindBits k) s (decodeCommErrorFrame k s) := by
  simp only [decodeCommErrorFrame, ne_ceLen_iff]
  split
  · rfl
  · exact commErrorDecoded_decodeCommErrorFields k s

theorem exec_decHb_of_idHeartbeat {s : State} (hid : s.fin.id = s.config.idHeartbeat) :
    exec .decHb s = .next (decodeHeartbeatFrame .none s) := by
  simp [exec, execDecHb, decodeHeartbeatFrame, hid]

theorem exec_decCe_of_idCommError {s : State} (hid : s.fin.id = s.config.idCommError) :
    exec .decCe s = .next (decodeCommErrorFrame .none s) := by
  simp [exec, execDecCe, decodeCommErrorFrame, hid]

/-- The heartbeat identifier is the first that Classify compares with, so the parameters need meet no constraint. -/
theorem exec_dec_of_idHeartbeat {s : State} (hid : s.fin.id = s.config.idHeartbeat) :
    exec .dec s = .next (decodeHeartbeatFrame .heartbeat s) := by
  have hclass : classify s.config s.fin.id = .heartbeat := if_pos hid
  simp only [exec, execDec, hclass, decodeHeartbeatFrame]

theorem exec_dec_of_idCommError {s : State} (hc : configValid s.config) (hid : s.fin.id = s.config.idCommError) :
    exec .dec s = .next (decodeCommErrorFrame .commError s) := by
  have hclass : classify s.config s.fin.id = .commError := classify_eq_of_standsFor hc hid
  simp only [exec, execDec, hclass, decodeCommErrorFrame]

/-- Settles O31: by the kind that the identifier stands for; in a valid configuration it stands for one only. -/
theorem decDispatchesByIdentifier : Obligations.DecDispatchesByIdentifier := by
  refine ⟨rfl, fun s hc => ⟨_, rfl, fun hid => ?_, fun hid => ?_, fun hid => ?_, fun hid => ?_, fun hid => ?_⟩⟩
  · simp only [classify_eq_of_standsFor hc (k := .heartbeat) hid]
    exact decodeHeartbeatFrame_spec .heartbeat s
  · simp only [classify_eq_of_standsFor hc (k := .commError) hid]
    exact decodeCommErrorFrame_spec .commError s
  · simp only [classify_eq_of_standsFor hc (k := .handbrake) hid]
    rfl
  · simp only [classify_eq_of_standsFor hc (k := .encoderSpeed) hid]
    rfl
  · have hother : StandsFor s.config s.fin.id .none := fun k hk heq => hid (heq ▸ hk)
    simp only [classify_eq_of_standsFor hc hother]
    rfl

/-- The two commands that decode a heartbeat differ only in the kind a failure reports. -/
theorem exec_heartbeatDecoder {i : Instr} (hi : i ∈ [Instr.decHb, .dec]) :
    ∃ k, ∀ s : State, s.fin.id = s.config.idHeartbeat → exec i s = .next (decodeHeartbeatFrame k s) := by
  simp only [List.mem_cons, List.not_mem_nil, or_false] at hi
  rcases hi with rfl | rfl
  · exact ⟨.none, fun _ => exec_decHb_of_idHeartbeat⟩
  · exact ⟨.heartbeat, fun _ => exec_dec_of_idHeartbeat⟩

/-- The two commands that decode a comm error differ only in the kind a failure reports. -/
theorem exec_commErrorDecoder {i : Instr} (hi : i ∈ [Instr.decCe, .dec]) :
    ∃ k, ∀ s : State, configValid s.config → s.fin.id = s.config.idCommError →
      exec i s = .next (decodeCommErrorFrame k s) := by
  simp only [List.mem_cons, List.not_mem_nil, or_false] at hi
  rcases hi with rfl | rfl
  · exact ⟨.none, fun _ _ => exec_decCe_of_idCommError⟩
  · exact ⟨.commError, fun _ => exec_dec_of_idCommError⟩

/-! ### Reserved bits (41_decoder R137) -/

theorem directionOf_congr {a b : Byte} (h : ∀ j, j < 2 → a.getLsbD j = b.getLsbD j) : directionOf a = directionOf b := by
  apply BitVec.eq_of_getLsbD_eq
  intro j hj
  rw [directionOf_getLsbD a hj, directionOf_getLsbD b hj, h j hj]

theorem signalsOf_congr {c : Config} {a b : Byte}
    (h : ∀ j, j < 2 → a.getLsbD (c.sigShift + j) = b.getLsbD (c.sigShift + j)) : signalsOf c a = signalsOf c b := by
  apply BitVec.eq_of_getLsbD_eq
  intro j hj
  rw [signalsOf_getLsbD c a hj, signalsOf_getLsbD c b hj, h j hj]

/-- Decoding a heartbeat reads of the payload bytes 0 and 1 and the two sub-fields of byte 2. -/
theorem decodeHeartbeatFrame_setPay (k : Kind) {s : State} {q : Payload}
    (hbyte0 : payByte q 0 = payByte s.fin.pay 0) (hbyte1 : payByte q 1 = payByte s.fin.pay 1)
    (hdir : directionOf (payByte q 2) = directionOf (payByte s.fin.pay 2))
    (hsig : signalsOf s.config (payByte q 2) = signalsOf s.config (payByte s.fin.pay 2)) :
    decodeHeartbeatFrame k (setFin { s.fin with pay := q } s) =
      setFin { (decodeHeartbeatFrame k s).fin with pay := q } (decodeHeartbeatFrame k s) := by
  simp only [decodeHeartbeatFrame, decodeHeartbeatFields, setFin_fin, setFin_config, hbyte0, hbyte1, hdir, hsig]
  split_ifs <;> rfl

/-- Settles O36: the bits that the statement keeps are the bits of the two sub-fields. -/
theorem reservedBitsIgnored : Obligations.ReservedBitsIgnored := by
  intro s q hid hbytes hbits i hi
  obtain ⟨k, hexec⟩ := exec_heartbeatDecoder hi
  simp only [List.forall_mem_cons] at hbits
  obtain ⟨hbit0, hbit1, hsig0, hsig1, -⟩ := hbits
  have hdir : directionOf (payByte q 2) = directionOf (payByte s.fin.pay 2) :=
    directionOf_congr fun
      | 0, _ => hbit0
      | 1, _ => hbit1
  have hsig : signalsOf s.config (payByte q 2) = signalsOf s.config (payByte s.fin.pay 2) :=
    signalsOf_congr fun
      | 0, _ => hsig0
      | 1, _ => hsig1
  have hframe := decodeHeartbeatFrame_setPay k (hbytes 0 (by decide) (by decide)) (hbytes 1 (by decide) (by decide)) hdir hsig
  exact ⟨_, hexec s hid, (hexec (setFin { s.fin with pay := q } s) hid).trans (congrArg _ hframe)⟩

/-! ### Decoding what was encoded (41_decoder R135) -/

theorem directionOf_heartbeatByte2 {c : Config} (hlow : 2 ≤ c.sigShift) (dir sig : Word) :
    directionOf (heartbeatByte2 c dir sig) = dir.setWidth 2 := by
  apply BitVec.eq_of_getLsbD_eq
  intro j hj
  rw [directionOf_getLsbD _ hj, heartbeatByte2_getLsbD hlow _ _ (by omega), if_neg (by omega), if_pos hj,
    BitVec.getLsbD_setWidth, decide_eq_true hj, Bool.true_and]

theorem signalsOf_heartbeatByte2 {c : Config} (hlow : 2 ≤ c.sigShift) (hhigh : c.sigShift ≤ 6) (dir sig : Word) :
    signalsOf c (heartbeatByte2 c dir sig) = sig.setWidth 2 := by
  apply BitVec.eq_of_getLsbD_eq
  intro j hj
  rw [signalsOf_getLsbD _ _ hj, heartbeatByte2_getLsbD hlow _ _ (by omega), if_pos (by omega), Nat.add_sub_cancel_left,
    BitVec.getLsbD_setWidth, decide_eq_true hj, Bool.true_and]

/-- Decoding the heartbeat frame of the fields of `s` gives those fields, truncated to their wire widths. -/
theorem decodeHeartbeatFrame_heartbeatFrame (k : Kind) (s u : State) (hc : configValid s.config)
    (hconfig : u.config = s.config) (hfin : u.fin = heartbeatFrame s) :
    decodeHeartbeatFrame k u =
      if s.dir.setWidth 2 = (3 : BitVec 2) then raiseCode .badField k u
      else endOk .heartbeat (setHeartbeat ((s.fwd.setWidth 8).setWidth 32) ((s.rev.setWidth 8).setWidth 32)
        ((s.dir.setWidth 2).setWidth 32) ((s.sig.setWidth 2).setWidth 32) u) := by
  obtain ⟨-, hlow, hhigh, -⟩ := hc
  have hlen : u.fin.len = hbLen := by rw [hfin]; rfl
  have hbyte0 : payByte u.fin.pay 0 = s.fwd.setWidth 8 := by rw [hfin, payByte_heartbeatFrame s (by decide)]; rfl
  have hbyte1 : payByte u.fin.pay 1 = s.rev.setWidth 8 := by rw [hfin, payByte_heartbeatFrame s (by decide)]; rfl
  have hbyte2 : payByte u.fin.pay 2 = heartbeatByte2 s.config s.dir s.sig := by
    rw [hfin, payByte_heartbeatFrame s (by decide)]; rfl
  rw [decodeHeartbeatFrame, if_neg (not_not_intro hlen)]
  simp only [decodeHeartbeatFields, hconfig, hbyte0, hbyte1, hbyte2, directionOf_heartbeatByte2 hlow,
    signalsOf_heartbeatByte2 hlow hhigh]

/-- Bytes 1 to 4 of the comm-error frame are MILLIS, split in the order CE_ORDER. -/
theorem payBytes_commErrorFrame (s : State) :
    payBytes (commErrorFrame s).pay 1 4 = splitBytes s.config.ceOrder s.millis.toNat 4 := by
  apply List.ext_getElem (by simp)
  intro k hk hk'
  rw [payBytes_length] at hk
  simp only [payBytes, List.getElem_map, List.getElem_range]
  rw [payByte_commErrorFrame s (by omega), Nat.add_comm, List.getD_cons_succ, List.getD_eq_getElem _ _ hk']

/-- Decoding the comm-error frame of the fields of `s` gives those fields, SYS truncated to its byte. -/
theorem decodeCommErrorFrame_commErrorFrame (k : Kind) (s u : State) (hconfig : u.config = s.config)
    (hfin : u.fin = commErrorFrame s) :
    decodeCommErrorFrame k u =
      if systemIdValid s.config (s.sys.setWidth 8) then
        endOk .commError (setCommError ((s.sys.setWidth 8).setWidth 32) s.millis u)
      else raiseCode .badField k u := by
  have hlen : u.fin.len = ceLen := by rw [hfin]; rfl
  have hbyte0 : payByte u.fin.pay 0 = s.sys.setWidth 8 := by rw [hfin, payByte_commErrorFrame s (by decide)]; rfl
  have hmillis : BitVec.ofNat 32 (assemble s.config.ceOrder (payBytes u.fin.pay 1 4)) = s.millis := by
    rw [hfin, payBytes_commErrorFrame, assemble_splitBytes]
    exact (congrArg (BitVec.ofNat 32) (Nat.mod_eq_of_lt s.millis.isLt)).trans (BitVec.ofNat_toNat 32 s.millis)
  rw [decodeCommErrorFrame, if_neg (not_not_intro hlen)]
  simp only [decodeCommErrorFields, hconfig, hbyte0, hmillis]

/-! ### Encode, LOOP, decode (41_decoder R135) -/

/-- The state that an encode command of the frame `f` and then LOOP leave: FOUT and FIN both hold `f` (43_control R181). -/
def encodedAndLooped (f : Frame) (s : State) : State := { s with fin := f, fout := f, status := okStatus s 0 }

theorem runAll_singleton (i : Instr) (s : State) : runAll [i] s = exec i s := by
  rw [runAll]
  cases exec i s <;> rfl

theorem runAll_encHb_loop (d : Instr) (s : State) :
    runAll [.encHb, .loop, d] s = exec d (encodedAndLooped (heartbeatFrame s) s) :=
  runAll_singleton d (encodedAndLooped (heartbeatFrame s) s)

theorem runAll_encCe_loop (d : Instr) (s : State) :
    runAll [.encCe, .loop, d] s = exec d (encodedAndLooped (commErrorFrame s) s) :=
  runAll_singleton d (encodedAndLooped (commErrorFrame s) s)

/-- A value that fits the wire width is not changed by truncation to it. -/
theorem setWidth_setWidth_of_lt {w : Nat} {x : Word} (h : x.toNat < 2 ^ w) : (x.setWidth w).setWidth 32 = x := by
  apply BitVec.eq_of_toNat_eq
  rw [BitVec.toNat_setWidth, BitVec.toNat_setWidth, Nat.mod_eq_of_lt h, Nat.mod_eq_of_lt x.isLt]

/-- Settles O33: the frame in FIN is the encoder's, its decoding is known, and fields in range are not truncated. -/
theorem roundTripLaws : Obligations.RoundTripLaws := by
  intro s hc
  constructor
  · intro hfwd hrev hdir hsig d hd
    obtain ⟨k, hexec⟩ := exec_heartbeatDecoder hd
    have hdirection : s.dir.setWidth 2 ≠ (3 : BitVec 2) := by
      rw [Ne, ← BitVec.toNat_inj, BitVec.toNat_setWidth, Nat.mod_eq_of_lt (by omega)]
      exact Nat.ne_of_lt (Nat.lt_succ_of_le hdir)
    have hdecoded := decodeHeartbeatFrame_heartbeatFrame k s (encodedAndLooped (heartbeatFrame s) s) hc rfl rfl
    rw [if_neg hdirection, setWidth_setWidth_of_lt (x := s.fwd) (by omega), setWidth_setWidth_of_lt (x := s.rev) (by omega),
      setWidth_setWidth_of_lt (x := s.dir) (by omega), setWidth_setWidth_of_lt (x := s.sig) (by omega)] at hdecoded
    refine ⟨_, (runAll_encHb_loop d s).trans (hexec _ rfl), ?_⟩
    rw [hdecoded]
    exact ⟨rfl, rfl, rfl, rfl, rfl⟩
  · intro hsys hvalid d hd
    obtain ⟨k, hexec⟩ := exec_commErrorDecoder hd
    have hid : systemIdValid s.config (s.sys.setWidth 8) = true := List.contains_iff_mem.mpr hvalid
    have hdecoded := decodeCommErrorFrame_commErrorFrame k s (encodedAndLooped (commErrorFrame s) s) rfl rfl
    rw [if_pos hid, setWidth_setWidth_of_lt (x := s.sys) (by omega)] at hdecoded
    refine ⟨_, (runAll_encCe_loop d s).trans (hexec _ hc rfl), ?_⟩
    rw [hdecoded]
    exact ⟨rfl, rfl, rfl⟩

end Sys2Proof.DecoderProofs

/-! PROOFS. The family 42_frame_parser: EXTRACT's word and result (R160, R161), what it does not read (R163, R165), and its agreement
with the decoder (R164). -/

namespace Sys2Proof.ParserProofs

open Sys2Proof.Machine Sys2Proof.Safety Sys2Proof.EncodingProofs Sys2Proof.DecoderProofs

/-! ### EXTRACT's word (30_encoding R80, R81) -/

theorem orderOfBit_bitOfOrder (o : ByteOrder) : orderOfBit (bitOfOrder o) = o := by cases o <;> rfl

theorem bitOfOrder_le_one (o : ByteOrder) : bitOfOrder o ≤ 1 := by cases o <;> decide

/-- The operand ranges of format X (30_encoding R90). -/
theorem wellFormed_extract_iff {off nb sh w : Nat} {o : ByteOrder} :
    (Instr.extract off nb o sh w).wellFormed = true ↔ off ≤ 7 ∧ (1 ≤ nb ∧ nb ≤ 4) ∧ sh ≤ 31 ∧ 1 ≤ w ∧ w ≤ 32 := by
  simp [Instr.wellFormed, and_assoc]

/-- EXTRACT's operands take the 16 bits above its opcode, so no bit of the sum is lost in the word. -/
theorem encode_extract_toNat {off nb sh w : Nat} {o : ByteOrder} (h : (Instr.extract off nb o sh w).wellFormed = true) :
    (encode (.extract off nb o sh w)).toNat =
      6 + off * 2 ^ 4 + (nb - 1) * 2 ^ 7 + bitOfOrder o * 2 ^ 9 + sh * 2 ^ 10 + (w - 1) * 2 ^ 15 := by
  have horder := bitOfOrder_le_one o
  rw [wellFormed_extract_iff] at h
  simp only [encode, opcode, operandBits, BitVec.toNat_ofNat]
  omega

/-- A word with opcode 6 and the reserved bits of format X at 0 decodes to an EXTRACT with the word's own fields. -/
theorem decode_of_opcode_extract {x : Word} (hop : x.toNat % 16 = 6) (hreserved : x.toNat / 2 ^ 20 = 0) :
    decode x = .ok (.extract (bitField x 6 4) (bitField x 8 7 + 1) (orderOfBit (bitField x 9 9)) (bitField x 14 10)
      (bitField x 19 15 + 1)) := by
  have hop' : bitField x 3 0 = 6 := by rw [bitField_eq, Nat.pow_zero, Nat.div_one]; exact hop
  have hreserved' : bitField x 31 20 = 0 := by rw [bitField_eq, hreserved, Nat.zero_mod]
  rw [decode, hop']
  exact if_pos hreserved'

/-- The decoder reads each operand of an EXTRACT back from where the encoder put it. -/
theorem decode_encode_extract {off nb sh w : Nat} {o : ByteOrder} (h : (Instr.extract off nb o sh w).wellFormed = true) :
    decode (encode (.extract off nb o sh w)) = .ok (.extract off nb o sh w) := by
  obtain ⟨hop, hreserved⟩ := Laws.WordFormat.extract off nb o sh w h
  have hword := encode_extract_toNat h
  have horder := bitOfOrder_le_one o
  rw [wellFormed_extract_iff] at h
  rw [decode_of_opcode_extract hop hreserved]
  simp only [bitField_eq, hword]
  congr 2
  · omega
  · omega
  · exact (congrArg orderOfBit (by omega)).trans (orderOfBit_bitOfOrder o)
  · omega
  · omega

/-! ### How an EXTRACT ends (42_frame_parser R160) -/

/-- The three ends of an EXTRACT: a field, or one of the two codes it raises. -/
inductive ExtractEnd where
  | field (x : Word)
  | badDescriptor
  | wrongLength

/-- How the EXTRACT of the descriptor `d` ends on a frame of length `len` and payload `p`. The old state, FIN.ID and the parameters
are no arguments: this is why EXTRACT depends on none of them (42_frame_parser R163, R165). -/
def extractEnd (d : Descriptor) (len : Byte) (p : Payload) : ExtractEnd :=
  if 8 < d.off + d.nb ∨ 8 * d.nb < d.shift + d.width then .badDescriptor
  else if 8 < len.toNat ∨ len.toNat < d.off + d.nb then .wrongLength
  else .field (unpack p d)

/-- The state that such an end leaves. -/
def ExtractEnd.leave : ExtractEnd → State → State
  | .field x, s => endOk .none (setXres x s)
  | .badDescriptor, s => raiseCode .badDescriptor .none s
  | .wrongLength, s => raiseCode .wrongLength .none s

theorem descriptorValid_eq_false_iff (d : Descriptor) :
    descriptorValid d = false ↔ 8 < d.off + d.nb ∨ 8 * d.nb < d.shift + d.width := by
  simp only [descriptorValid, Bool.and_eq_false_iff, decide_eq_false_iff_not, Nat.not_le]

/-- EXTRACT leaves the state of its end. -/
theorem exec_extract (off nb : Nat) (o : ByteOrder) (sh w : Nat) (s : State) :
    exec (.extract off nb o sh w) s = .next ((extractEnd ⟨off, nb, o, sh, w⟩ s.fin.len s.fin.pay).leave s) := by
  simp only [exec, execExtract, descriptorValid_eq_false_iff, extractEnd]
  split_ifs <;> rfl

/-- EXTRACT with a valid descriptor that lies inside the frame completes. -/
theorem exec_extract_of_inside {off nb sh w : Nat} (o : ByteOrder) {s : State} (hfield : sh + w ≤ 8 * nb)
    (hlen : s.fin.len.toNat ≤ 8) (hinside : off + nb ≤ s.fin.len.toNat) :
    exec (.extract off nb o sh w) s = .next (endOk .none (setXres (unpack s.fin.pay ⟨off, nb, o, sh, w⟩) s)) := by
  rw [exec_extract, extractEnd, if_neg (by dsimp only; omega), if_neg (by dsimp only; omega), ExtractEnd.leave]

/-- Settles O37: the word and its decoding, then the three ends of EXTRACT in order, and the bits of Unpack on the last. -/
theorem extractTakesTheField : Obligations.ExtractTakesTheField := by
  intro off nb o sh w s h
  refine ⟨⟨?_, decode_encode_extract h⟩, _, exec_extract off nb o sh w s, ?_⟩
  · rw [encode_extract_toNat h]
    cases o <;> rfl
  · unfold extractEnd
    split
    · rfl
    · next hdescriptor =>
      split
      · rfl
      · refine ⟨rfl, rfl, fun j hj => (unpack_testBit s.fin.pay ⟨off, nb, o, sh, w⟩ j).trans ?_⟩
        by_cases hw : j < w
        · simp only [hj, hw, decide_true, Bool.true_and]
          exact assemble_testBit o s.fin.pay off nb (sh + j) (by omega)
        · simp only [hw, decide_false, Bool.and_false, Bool.false_and]

/-! ### What EXTRACT does not read (42_frame_parser R163, R165) -/

/-- Settles O38: the ends agree by definition, and leaving the state touches neither FIN nor the parameters. -/
theorem extractIsKindAgnostic : Obligations.ExtractIsKindAgnostic := by
  intro off nb o sh w s id c
  refine ⟨_, exec_extract off nb o sh w s, (exec_extract off nb o sh w _).trans (congrArg _ ?_)⟩
  cases extractEnd ⟨off, nb, o, sh, w⟩ s.fin.len s.fin.pay <;> rfl

/-- An end changes XRES and STATUS only. -/
theorem ExtractEnd.leave_frame (e : ExtractEnd) (s : State) :
    e.leave s = { s with xres := (e.leave s).xres, status := (e.leave s).status } := by cases e <;> rfl

/-- The code and kind of an end, and its field if the code is OK, are the same whatever the state before. -/
theorem ExtractEnd.leave_agree (e : ExtractEnd) (s u : State) :
    (e.leave u).status.code = (e.leave s).status.code ∧ (e.leave u).status.kind = (e.leave s).status.kind ∧
      ((e.leave s).status.code = 0 → (e.leave u).xres = (e.leave s).xres) := by
  cases e with
  | field x => exact ⟨rfl, rfl, fun _ => rfl⟩
  | badDescriptor => exact ⟨rfl, rfl, fun h => absurd (show codeBits .badDescriptor = 0 from h) (by decide)⟩
  | wrongLength => exact ⟨rfl, rfl, fun h => absurd (show codeBits .wrongLength = 0 from h) (by decide)⟩

/-- An EXTRACT leaves FIN, so the next one ends as it would alone. -/
theorem ExtractEnd.leave_fin (e : ExtractEnd) (s : State) : (e.leave s).fin = s.fin := by cases e <;> rfl

/-- Settles O39: equal FIN gives equal ends, and an EXTRACT before this one leaves FIN. -/
theorem extractsAreIndependent : Obligations.ExtractsAreIndependent := by
  intro off nb o sh w s
  have hsame (u : State) (hfin : u.fin = s.fin) :
      exec (.extract off nb o sh w) u = .next ((extractEnd ⟨off, nb, o, sh, w⟩ s.fin.len s.fin.pay).leave u) := by
    rw [exec_extract, hfin]
  refine ⟨_, hsame s rfl, ExtractEnd.leave_frame _ s, fun u hfin => ⟨_, hsame u hfin, ExtractEnd.leave_agree _ s u⟩, ?_⟩
  intro off' nb' o' sh' w'
  exact ⟨_, _, exec_extract off' nb' o' sh' w' s, hsame _ (ExtractEnd.leave_fin _ s), ExtractEnd.leave_agree _ s _⟩

/-! ### EXTRACT and the decoder (42_frame_parser R164) -/

/-- The decoder rejects a heartbeat for its direction code only, and Unpack of the direction row is then that code. -/
theorem unpack_dir_of_heartbeatDecoded {k : BitVec 3} {s t : State} (h : HeartbeatDecoded k s t) (hbad : t.status.code ≠ 0) :
    unpack s.fin.pay ⟨2, 1, .le, 0, 2⟩ = 3 := by
  unfold HeartbeatDecoded at h
  split at h
  · next hdir =>
    apply BitVec.eq_of_toNat_eq
    rw [unpack_oneByte_toNat _ _ _ (by decide), Nat.pow_zero, Nat.div_one]
    exact hdir
  · obtain ⟨hframe, -⟩ := h
    exact absurd (congrArg (·.status.code) hframe) hbad

/-- Unpack of a field that fills four bytes is those bytes, assembled. -/
theorem unpack_fourBytes_toNat (o : ByteOrder) (p : Payload) (off : Nat) :
    (unpack p ⟨off, 4, o, 0, 32⟩).toNat = assemble o (payBytes p off 4) := by
  have hlt := assemble_lt o (payBytes p off 4)
  rw [payBytes_length] at hlt
  rw [unpack, fieldOf_toNat _ _ _ (Nat.le_refl 32), Nat.pow_zero, Nat.div_one]
  exact Nat.mod_eq_of_lt hlt

/-- The fields of a comm error that decoded with OK are Unpack of the layout rows (30_encoding R76). -/
theorem fields_eq_unpack_of_commErrorDecoded {k : BitVec 3} {s t : State} (h : CommErrorDecoded k s t)
    (hok : t.status.code = 0) :
    t.sys = unpack s.fin.pay ⟨0, 1, .le, 0, 8⟩ ∧ t.millis = unpack s.fin.pay ⟨1, 4, s.config.ceOrder, 0, 32⟩ := by
  unfold CommErrorDecoded at h
  split at h
  · subst h
    exact absurd hok (by simp [failed])
  · obtain ⟨-, hsys, hmillis⟩ := h
    constructor <;> apply BitVec.eq_of_toNat_eq
    · rw [hsys, unpack_wholeByte_toNat, finByte]
    · rw [hmillis, unpack_fourBytes_toNat, assemble_four_bytes]
      rfl

/-- The decoder rejects a comm error for its systemId only. -/
theorem systemId_not_mem_of_commErrorDecoded {k : BitVec 3} {s t : State} (h : CommErrorDecoded k s t)
    (hbad : t.status.code ≠ 0) : payByte s.fin.pay 0 ∉ s.config.systemIds := by
  unfold CommErrorDecoded at h
  split at h
  · assumption
  · obtain ⟨hframe, -⟩ := h
    exact absurd (congrArg (·.status.code) hframe) hbad

/-- Unpack of a whole byte, cut to 8 bits again. -/
theorem setWidth_unpack_wholeByte (p : Payload) (off : Nat) :
    (unpack p ⟨off, 1, .le, 0, 8⟩).setWidth 8 = payByte p off := by
  apply BitVec.eq_of_toNat_eq
  rw [BitVec.toNat_setWidth, unpack_wholeByte_toNat, Nat.mod_eq_of_lt (payByte p off).isLt]

/-- Settles O40: every descriptor of the rule lies inside its frame, so each EXTRACT gives Unpack of a layout row, and so does the
decoder on OK; otherwise the rejected field is the one the decoder checked. -/
theorem extractAgreesWithDecoder : Obligations.ExtractAgreesWithDecoder := by
  rintro s ⟨-, -, hshift, -⟩
  refine ⟨fun hid hlen => ?_, fun hid hlen => ?_⟩
  · have hrun {off nb sh w : Nat} (hfield : sh + w ≤ 8 * nb) (hinside : off + nb ≤ 3) :=
      exec_extract_of_inside (off := off) (s := s) .le hfield (by omega) (by omega)
    have hdecoded := decodeHeartbeatFrame_spec .none s
    rw [if_neg (not_not_intro hlen)] at hdecoded
    refine ⟨_, _, _, _, _, exec_decHb_of_idHeartbeat hid, hrun (by omega) (by omega), hrun (by omega) (by omega),
      hrun (by omega) (by omega), hrun (by omega) (by omega), fun hok => ?_, fun hbad => ?_⟩
    · obtain ⟨hfwd, hrev, hdir, hsig⟩ := fields_eq_unpack_of_heartbeatDecoded hdecoded hok
      exact ⟨hfwd.symm, hrev.symm, hdir.symm, hsig.symm⟩
    · exact ⟨unpack_dir_of_heartbeatDecoded hdecoded hbad, rfl⟩
  · have hrun (o : ByteOrder) {off nb sh w : Nat} (hfield : sh + w ≤ 8 * nb) (hinside : off + nb ≤ 5) :=
      exec_extract_of_inside (off := off) (s := s) o hfield (by omega) (by omega)
    have hdecoded := decodeCommErrorFrame_spec .none s
    rw [if_neg (not_not_intro hlen)] at hdecoded
    refine ⟨_, _, _, exec_decCe_of_idCommError hid, hrun .le (by omega) (by omega), hrun s.config.ceOrder (by omega) (by omega),
      fun hok => ?_, fun hbad => ⟨unpack_wholeByte_toNat s.fin.pay 0, ?_, rfl⟩⟩
    · obtain ⟨hsys, hmillis⟩ := fields_eq_unpack_of_commErrorDecoded hdecoded hok
      exact ⟨hsys.symm, hmillis.symm⟩
    · have hinvalid := systemId_not_mem_of_commErrorDecoded hdecoded hbad
      rwa [← setWidth_unpack_wholeByte] at hinvalid

end Sys2Proof.ParserProofs

/-! PROOFS. The family 43_control: NOP (R180), LOOP (R181), and the illegal command word (R182). -/

namespace Sys2Proof.ControlProofs

open Sys2Proof.Machine Sys2Proof.Safety Sys2Proof.MemoryProofs

/-! ### The decoder accepts no illegal word (30_encoding R83) -/

/-- OP, as the arithmetic of R83 writes it. -/
theorem bitField_opcode (w : Word) : bitField w 3 0 = w.toNat % 16 := by
  simp [bitField_eq]

/-- What format X accepts has no reserved bit set (30_encoding R80). -/
theorem reservedBits_eq_zero_of_formatX_eq_ok {w : Word} {i : Instr} (h : formatX w = .ok i) : w.toNat / 2 ^ 20 = 0 := by
  have hw := w.isLt
  unfold formatX at h
  rw [bitField_eq] at h
  split at h
  · omega
  · cases h

/-- A word that decodes to a command has an opcode of R82, and the reserved bits of that opcode's format are 0. -/
theorem not_illegalWord_of_decode_eq_ok {w : Word} {i : Instr} (h : decode w = .ok i) : ¬ IllegalWord w := by
  rw [decode, bitField_opcode] at h
  split at h
  case h_7 hop =>
    have hbits := reservedBits_eq_zero_of_formatX_eq_ok h
    omega
  case h_9 => cases h
  all_goals
    obtain ⟨hbits, -⟩ := formatR_eq_ok.mp h
    omega

theorem decode_eq_error_of_illegalWord {w : Word} (h : IllegalWord w) : ∃ r, decode w = .error r := by
  cases hd : decode w with
  | ok i => exact absurd h (not_illegalWord_of_decode_eq_ok hd)
  | error r => exact ⟨r, rfl⟩

/-! ### A host write to CMD (10_state R29) -/

/-- The word is in CMD and the host has gone on before the command runs. -/
theorem nextAction_writeCmd {s : State} {rest : List HostInput} {w : Word} (hc : configValid s.config)
    (hp : WritesNext s 0x00 w rest) :
    nextAction s = .command w { s with cmd := w, host := hostAfter s rest [] } := by
  rw [nextAction_write hc (by decide) (by decide) hp, accessDone_eq]
  rfl

/-- `raise ILLEGAL_CMD` with kind NONE, in the words of the statements. -/
theorem illegalCommand_eq_failed (s : State) : illegalCommand s = failed s 7 0 := rfl

/-! ### The next state of LOOP (43_control R181) -/

theorem exec_loop (s : State) : exec .loop s = .next { s with fin := s.fout, status := okStatus s 0 } := rfl

/-! ### The obligations -/

/-- Settles O11: the decoder rejects every illegal word, and the step then raises ILLEGAL_CMD on the state that holds it in CMD. -/
theorem illegalWordReportsIllegalCmd : Obligations.IllegalWordReportsIllegalCmd := by
  intro s rest w hc hp hillegal
  obtain ⟨r, hd⟩ := decode_eq_error_of_illegalWord hillegal
  simp only [step, nextAction_writeCmd hc hp, hd, illegalCommand_eq_failed]
  rfl

/-- Settles O22: the meaning of NOP is the identity, and a word with OP = 0 and a reserved bit set is illegal. -/
theorem nopChangesNothing : Obligations.NopChangesNothing := by
  refine ⟨by decide, fun _ => rfl, fun w hop hbits => ?_⟩
  have hillegal : IllegalWord w := .inr (.inl ⟨by omega, hbits⟩)
  exact decode_eq_error_of_illegalWord hillegal

/-- Settles O23: FIN becomes the frame FOUT itself, so its eight bytes are FOUT's. -/
theorem loopCopiesFoutToFin : Obligations.LoopCopiesFoutToFin :=
  ⟨by decide, fun s => ⟨_, exec_loop s, rfl, rfl, rfl, fun _ _ => rfl⟩⟩

end Sys2Proof.ControlProofs

/-! PROOFS. The family 60_exceptions: what overwrites STATUS (R207). -/

namespace Sys2Proof.ExceptionProofs

open Sys2Proof.Machine Sys2Proof.Safety Sys2Proof.ControlProofs

/-! ### What an access and a command do to STATUS -/

/-- A host write that starts no command leaves STATUS, unless it is one to STATUS itself (10_state R30). -/
theorem writeOffset_status (off : Nat) (w : Word) (s : State) :
    (writeOffset off w s).status = s.status ∨
      off = 0x04 ∧ (writeOffset off w s).status = statusWritten w s.status := by
  cases hr : regAt off with
  | none => exact .inl (by simp only [writeOffset, hr])
  | some r =>
    simp only [writeOffset, hr, writeReg_status]
    by_cases hstatus : r = .status
    · subst hstatus
      exact .inr ⟨regAt_eq_some hr, if_pos rfl⟩
    · exact .inl (if_neg hstatus)

/-- NOP leaves STATUS, and no other command clears STICKY (10_state R33). -/
theorem effect_status {i : Instr} {s t : State} (h : Effect i s t) :
    t.status = s.status ∨ i ≠ .nop ∧ (s.status.sticky = true → t.status.sticky = true) := by
  cases h with
  | nop => exact .inl rfl
  | raised hi => exact .inr ⟨hi, fun _ => rfl⟩
  | encodedHb hi | encodedCe hi | extracted _ _ _ _ _ hi | looped hi =>
    subst hi
    exact .inr ⟨Instr.noConfusion, id⟩
  | decodedHb hi | decodedCe hi =>
    rcases hi with rfl | rfl <;> exact .inr ⟨Instr.noConfusion, id⟩

/-- A word that does not decode to NOP is not the word 0 (43_control R180). -/
theorem ne_zero_of_decode_ne_nop {w : Word} (h : decode w ≠ .ok .nop) : w ≠ 0 := by
  rintro rfl
  obtain ⟨hzero, -, -⟩ := nopChangesNothing
  exact h hzero

/-! ### What a step does to STATUS -/

/-- Everything a step can do to STATUS: leave it, reset it, clear STICKY at most, or overwrite it by a command other than NOP, which
does not clear STICKY. -/
theorem step_status {s t : State} (h : step s = .next t) :
    t.status = s.status ∨
    (∃ rest, s.host.pending = .reset :: rest) ∨
    (∃ w rest, WritesNext s 0x04 w rest ∧ t.status = statusWritten w s.status) ∨
    (∃ w rest, WritesNext s 0x00 w rest ∧ w ≠ 0 ∧ (s.status.sticky = true → t.status.sticky = true)) := by
  obtain ⟨-, hcases⟩ := step_cases h
  rcases hcases with ⟨-, rfl⟩ | ⟨rest, hp, -⟩ | ⟨off, rest, -, rfl⟩ | ⟨off, w, rest, hp, -, rfl⟩ |
    ⟨w, rest, i, hp, hd, heff⟩ | ⟨w, rest, e, hp, hd, rfl⟩
  · exact .inl rfl
  · exact .inr (.inl ⟨rest, hp⟩)
  · exact .inl rfl
  · rcases writeOffset_status off w (accessDone rest s) with hkept | ⟨rfl, hwritten⟩
    · exact .inl hkept
    · exact .inr (.inr (.inl ⟨w, rest, hp, hwritten⟩))
  · rcases effect_status heff with hkept | ⟨hi, hsticky⟩
    · exact .inl hkept
    · exact .inr (.inr (.inr ⟨w, rest, hp, ne_zero_of_decode_ne_nop (by simp [hd, hi]), hsticky⟩))
  · exact .inr (.inr (.inr ⟨w, rest, hp, ne_zero_of_decode_ne_nop (by simp [hd]), fun _ => rfl⟩))

/-! ### The obligation -/

/-- Settles O52: by cases on what a step can do to STATUS. A STATUS write keeps CODE and KIND and, without bit 8, STICKY. -/
theorem statusStaysUntilOverwritten : Obligations.StatusStaysUntilOverwritten := by
  intro s t h
  rcases step_status h with hkept | hreset | ⟨w, rest, hp, hwritten⟩ | ⟨w, rest, hp, hw, hsticky⟩
  · rw [hkept]
    exact ⟨fun hset hclear => by simp [hset] at hclear, fun hchanged => by simp at hchanged⟩
  · exact ⟨fun _ _ => .inl hreset, fun _ => .inl hreset⟩
  · rw [hwritten]
    refine ⟨fun hset hclear => .inr ⟨w, rest, hp, ?_⟩, fun hchanged => by simp at hchanged⟩
    by_contra hbit
    rw [statusWritten_sticky, if_neg hbit, hset] at hclear
    cases hclear
  · exact ⟨fun hset hclear => by simp [hsticky hset] at hclear, fun _ => .inr ⟨w, rest, hp, hw⟩⟩

end Sys2Proof.ExceptionProofs

/-! PROOFS. The family 70_reset_and_hazards: the eight commands right after reset (R232). -/

namespace Sys2Proof.ResetProofs

open Sys2Proof.Machine Sys2Proof.Safety Sys2Proof.StateProofs Sys2Proof.EncoderProofs Sys2Proof.DecoderProofs
  Sys2Proof.ParserProofs Sys2Proof.ControlProofs

/-! ### Encoding fields that are all 0 (40_encoder R111, R112) -/

theorem leBytes_zero (n : Nat) : leBytes 0 n = List.replicate n 0 := by
  induction n with
  | zero => rfl
  | succ n ih => rw [leBytes, Nat.zero_div, ih, List.replicate_succ]; rfl

/-- The bytes of 0 are 0 in either order. -/
theorem splitBytes_zero (o : ByteOrder) (n : Nat) : splitBytes o 0 n = List.replicate n 0 := by
  cases o with
  | le => exact leBytes_zero n
  | be => rw [splitBytes, leBytes_zero, List.reverse_replicate]

theorem heartbeatByte2_zero (c : Config) : heartbeatByte2 c 0 0 = 0 := by simp [heartbeatByte2]

/-- The payload bytes of the heartbeat frame are three zeros, whatever SIG_SHIFT is, and the zeros after them. -/
theorem payByte_heartbeatFrame_resetWith (c : Config) {k : Nat} (hk : k < 8) :
    payByte (heartbeatFrame (State.resetWith c)).pay k = 0 := by
  have hbyte2 : heartbeatByte2 (State.resetWith c).config (State.resetWith c).dir (State.resetWith c).sig = 0 :=
    heartbeatByte2_zero c
  rw [payByte_heartbeatFrame _ hk, hbyte2]
  exact List.getElem?_getD_replicate_default_eq (d := (0 : Byte)) 3 k

/-- The payload bytes of the comm-error frame are five zeros, whatever CE_ORDER is, and the zeros after them. -/
theorem payByte_commErrorFrame_resetWith (c : Config) {k : Nat} (hk : k < 8) :
    payByte (commErrorFrame (State.resetWith c)).pay k = 0 := by
  have hmillis : splitBytes (State.resetWith c).config.ceOrder (State.resetWith c).millis.toNat 4 = List.replicate 4 0 :=
    splitBytes_zero c.ceOrder 4
  rw [payByte_commErrorFrame _ hk, hmillis]
  exact List.getElem?_getD_replicate_default_eq (d := (0 : Byte)) 5 k

/-! ### Decoding a frame of the wrong length (41_decoder R131) -/

/-- FIN.LEN right after reset is no other length than 0. -/
theorem fin_len_resetWith_ne (c : Config) {n : Nat} (hn : 0 ≠ n) : (State.resetWith c).fin.len.toNat ≠ n := hn

theorem exec_decHb_of_len_ne {s : State} (h : s.fin.len.toNat ≠ 3) : exec .decHb s = .next (failed s 1 0) := by
  rw [exec, execDecHb, if_pos ((ne_hbLen_iff _).mpr h)]
  rfl

theorem exec_decCe_of_len_ne {s : State} (h : s.fin.len.toNat ≠ 5) : exec .decCe s = .next (failed s 1 0) := by
  rw [exec, execDecCe, if_pos ((ne_ceLen_iff _).mpr h)]
  rfl

/-- DEC right after reset: FIN.ID is 0, so what it reports depends on which identifier parameter is 0, and FIN.LEN is 0, which is no
kind's length (41_decoder R134). -/
theorem exec_dec_resetWith {c : Config} (hc : configValid c) :
    exec .dec (State.resetWith c) = .next
      (if c.idHeartbeat = 0 then failed (State.resetWith c) 1 1
       else if c.idCommError = 0 then failed (State.resetWith c) 1 2
       else if c.idHandbrake = 0 then failed (State.resetWith c) 5 3
       else if c.idEncoderSpeed = 0 then failed (State.resetWith c) 5 4
       else failed (State.resetWith c) 4 0) := by
  obtain ⟨t, hexec, hheartbeat, hcomm, hhandbrake, hspeed, hnone⟩ := decDispatchesByIdentifier.2 (State.resetWith c) hc
  rw [if_pos (fin_len_resetWith_ne c (by decide))] at hheartbeat
  rw [if_pos (fin_len_resetWith_ne c (by decide))] at hcomm
  rw [hexec]
  congr 1
  split_ifs with hH hC hB hS
  · exact hheartbeat hH.symm
  · exact hcomm hC.symm
  · exact hhandbrake hB.symm
  · exact hspeed hS.symm
  · have hother : (0 : Word) ∉ [c.idHeartbeat, c.idCommError, c.idHandbrake, c.idEncoderSpeed] := by
      simp only [List.mem_cons, List.not_mem_nil, or_false, not_or]
      exact ⟨Ne.symm hH, Ne.symm hC, Ne.symm hB, Ne.symm hS⟩
    exact hnone hother

/-! ### Extracting from an empty frame (42_frame_parser R160) -/

/-- A field of at least one byte never lies inside a frame of length 0, so no descriptor reaches Unpack. -/
theorem extractEnd_of_len_zero {d : Descriptor} (hnb : 1 ≤ d.nb) (p : Payload) :
    extractEnd d 0 p = if 8 < d.off + d.nb ∨ 8 * d.nb < d.shift + d.width then .badDescriptor else .wrongLength := by
  have hshort : (0 : Byte).toNat < d.off + d.nb := Nat.lt_add_left d.off hnb
  simp only [extractEnd, hshort, or_true, if_true]

theorem exec_extract_of_len_zero {off nb sh w : Nat} {o : ByteOrder} {s : State} (hlen : s.fin.len = 0) (hnb : 1 ≤ nb) :
    exec (.extract off nb o sh w) s =
      .next (if 8 < off + nb ∨ 8 * nb < sh + w then failed s 6 0 else failed s 1 0) := by
  rw [exec_extract, hlen, extractEnd_of_len_zero hnb]
  split_ifs <;> rfl

/-! ### The obligation -/

/-- Settles O3: the two encoders' bytes, the decoders' length check and EXTRACT's two checks on the zero frame; LOOP copies one zero
frame over the other. -/
theorem commandsAfterReset : Obligations.CommandsAfterReset := by
  intro c hc s
  refine ⟨rfl, ⟨_, exec_encHb s, rfl, rfl, rfl, fun k hk => ?_⟩, ⟨_, exec_encCe s, rfl, rfl, rfl, fun k hk => ?_⟩,
    exec_decHb_of_len_ne (fin_len_resetWith_ne c (by decide)), exec_decCe_of_len_ne (fin_len_resetWith_ne c (by decide)),
    exec_dec_resetWith hc, fun off nb o sh w h => ?_, ⟨_, exec_loop s, rfl, rfl, rfl, fun k _ => ?_⟩⟩
  · exact congrArg BitVec.toNat (payByte_heartbeatFrame_resetWith c hk)
  · exact congrArg BitVec.toNat (payByte_commErrorFrame_resetWith c hk)
  · obtain ⟨-, ⟨hnb, -⟩, -⟩ := wellFormed_extract_iff.mp h
    exact exec_extract_of_len_zero rfl hnb
  · exact congrArg BitVec.toNat (payByte_frameZero k)

end Sys2Proof.ResetProofs

/-! PROOFS. The command words of 30_encoding section 3: every word is one command or illegal (R83), and decoding undoes encoding. -/

namespace Sys2Proof.WordProofs

open Sys2Proof.Machine Sys2Proof.Safety Sys2Proof.ParserProofs Sys2Proof.ControlProofs

/-- Settles O8: a format R word is its opcode, and EXTRACT's operands are read back from where the encoder put them. -/
theorem decodeEncodeRoundTrip : Obligations.DecodeEncodeRoundTrip := by
  intro i hi
  cases i with
  | extract off nb order sh w => exact decode_encode_extract hi
  | nop | encHb | encCe | decHb | decCe | dec | loop => decide

/-! ### Every word is one command or illegal (30_encoding R83) -/

theorem bitOfOrder_orderOfBit {b : Nat} (hb : b < 2) : bitOfOrder (orderOfBit b) = b := by
  interval_cases b <;> rfl

/-- The fields of format X hold only operands in range (30_encoding R90). -/
theorem wellFormed_extract_fields (w : Word) (order : ByteOrder) :
    (Instr.extract (bitField w 6 4) (bitField w 8 7 + 1) order (bitField w 14 10) (bitField w 19 15 + 1)).wellFormed = true := by
  simp only [wellFormed_extract_iff, bitField_eq]
  omega

/-- The fields of format X, put back in their places, make up the 20 bits that the format uses (30_encoding R80). -/
theorem encode_fields_of_opcode_extract {w : Word} (hop : w.toNat % 16 = 6) (hreserved : w.toNat / 2 ^ 20 = 0) :
    ∃ i : Instr, i.wellFormed = true ∧ decode w = .ok i ∧ encode i = w := by
  have hwf := wellFormed_extract_fields w (orderOfBit (bitField w 9 9))
  have horder : bitOfOrder (orderOfBit (bitField w 9 9)) = bitField w 9 9 := by
    apply bitOfOrder_orderOfBit
    rw [bitField_eq]
    omega
  refine ⟨_, hwf, decode_of_opcode_extract hop hreserved, BitVec.eq_of_toNat_eq ?_⟩
  rw [encode_extract_toNat hwf, horder]
  simp only [bitField_eq]
  omega

/-- A word below 8 other than 6 is a command without operands, and that command's word. -/
theorem encode_opcode_of_lt {w : Word} (hlt : w.toNat < 8) (hne : w.toNat ≠ 6) :
    ∃ i : Instr, i.wellFormed = true ∧ decode w = .ok i ∧ encode i = w := by
  obtain ⟨n, rfl⟩ : ∃ n : Fin 8, w = BitVec.ofNat 32 n.val := ⟨⟨w.toNat, hlt⟩, by simp⟩
  fin_cases n
  · exact ⟨.nop, by decide⟩
  · exact ⟨.encHb, by decide⟩
  · exact ⟨.encCe, by decide⟩
  · exact ⟨.decHb, by decide⟩
  · exact ⟨.decCe, by decide⟩
  · exact ⟨.dec, by decide⟩
  · exact absurd rfl hne
  · exact ⟨.loop, by decide⟩

/-- Settles O7: the decoder rejects an illegal word; a word that is not illegal is an EXTRACT if its opcode is 6, and otherwise is its
opcode alone. -/
theorem everyWordIsOneCommandOrIllegal : Obligations.EveryWordIsOneCommandOrIllegal := by
  intro w
  by_cases hillegal : IllegalWord w
  · exact .inl ⟨hillegal, decode_eq_error_of_illegalWord hillegal⟩
  refine .inr ⟨hillegal, ?_⟩
  by_cases hop : w.toNat % 16 = 6
  · exact encode_fields_of_opcode_extract hop (by omega)
  · exact encode_opcode_of_lt (by omega) (by omega)

/-- The word that decodes to a command is the command's own. -/
theorem encode_of_decode_eq_ok {w : Word} {i : Instr} (h : decode w = .ok i) : encode i = w := by
  rcases everyWordIsOneCommandOrIllegal w with ⟨-, r, herror⟩ | ⟨-, j, -, hok, hencode⟩
  · simp [h] at herror
  · rw [h] at hok
    cases hok
    exact hencode

/-- Settles O6: by evaluation of the decoder on the thirteen words. -/
theorem wordsOfTheTables : Obligations.WordsOfTheTables := by
  refine ⟨?_, ?_, ?_, ?_, ?_, ?_, ?_, ?_, ?_, ?_, ?_, ?_, ?_⟩ <;> decide

end Sys2Proof.WordProofs

/-! PROOFS. Rules of the whole machine: what the step refuses (00_scope R8, 20_memory R52), what a defined input does to the host's
side and to each state element, and which inputs reach FOUT, XRES and CMD (10_state sections 3 and 5). -/

namespace Sys2Proof.MachineProofs

open Sys2Proof.Machine Sys2Proof.Safety Sys2Proof.StateProofs Sys2Proof.MemoryProofs Sys2Proof.EncodingProofs
  Sys2Proof.ControlProofs Sys2Proof.ExceptionProofs

/-! ### Which inputs reach FOUT and XRES -/

/-- A step other than reset keeps FOUT and XRES, unless it performs a command: no host access writes them (20_memory R54). -/
theorem step_fout_xres {s t : State} (h : step s = .next t) :
    (∃ rest, s.host.pending = .reset :: rest) ∨
    (t.fout = s.fout ∧ t.xres = s.xres) ∨
    ∃ w rest i, WritesNext s 0x00 w rest ∧ decode w = .ok i ∧ Effect i (setCmd w (accessDone rest s)) t := by
  obtain ⟨-, hcases⟩ := step_cases h
  rcases hcases with ⟨-, rfl⟩ | ⟨rest, hp, -⟩ | ⟨off, rest, -, rfl⟩ | ⟨off, w, rest, -, -, rfl⟩ |
    ⟨w, rest, i, hp, hd, heff⟩ | ⟨w, rest, e, -, -, rfl⟩
  · exact .inr (.inl ⟨rfl, rfl⟩)
  · exact .inl ⟨rest, hp⟩
  · exact .inr (.inl ⟨rfl, rfl⟩)
  · obtain ⟨hfout, hxres, -⟩ := writeOffset_frame off w (accessDone rest s)
    exact .inr (.inl ⟨hfout, hxres⟩)
  · exact .inr (.inr ⟨w, rest, i, hp, hd, heff⟩)
  · exact .inr (.inl ⟨rfl, rfl⟩)

/-- A command leaves XRES, unless it is an EXTRACT that ends with OK and kind NONE (10_state R28). -/
theorem effect_xres {i : Instr} {s t : State} (h : Effect i s t) :
    t.xres = s.xres ∨ (∃ off nb o sh w, i = .extract off nb o sh w) ∧ t.status.code = 0 ∧ t.status.kind = 0 := by
  cases h with
  | extracted off nb o sh w hi => exact .inr ⟨⟨off, nb, o, sh, w, hi⟩, rfl, rfl⟩
  | nop | raised | encodedHb | encodedCe | decodedHb | decodedCe | looped => exact .inl rfl

/-- Settles O53: the host cannot write XRES, and of the commands only an EXTRACT that ends with OK does. -/
theorem onlyExtractWritesXres : Obligations.OnlyExtractWritesXres := by
  intro s t h hchanged
  rcases step_fout_xres h with hreset | ⟨-, hkept⟩ | ⟨w, rest, i, hp, hd, heff⟩
  · exact .inl hreset
  · exact absurd hkept hchanged
  · rcases effect_xres heff with hkept | ⟨⟨off, nb, o, sh, wd, rfl⟩, hcode, -⟩
    · exact absurd hkept hchanged
    · exact .inr ⟨w, rest, off, nb, o, sh, wd, hp, hd, hcode⟩

/-- Settles O54: the host cannot write FOUT, and of the commands only the encoders do. -/
theorem onlyEncodersWriteFout : Obligations.OnlyEncodersWriteFout := by
  intro s t h hchanged
  rcases step_fout_xres h with hreset | ⟨hkept, -⟩ | ⟨w, rest, i, hp, hd, heff⟩
  · exact .inl hreset
  · exact absurd hkept hchanged
  · rcases effect_fout heff with ⟨rfl, -⟩ | ⟨rfl, -⟩ | hkept
    · exact .inr ⟨w, rest, hp, .inl hd⟩
    · exact .inr ⟨w, rest, hp, .inr hd⟩
    · exact absurd hkept hchanged

/-! ### What the step refuses (00_scope R8, 20_memory R52) -/

/-- The constraints of R8 written out: the four identifiers differ pair by pair. -/
theorem configValid_iff (c : Config) :
    configValid c ↔
      (c.idHeartbeat ≠ c.idCommError ∧ c.idHeartbeat ≠ c.idHandbrake ∧ c.idHeartbeat ≠ c.idEncoderSpeed ∧
        c.idCommError ≠ c.idHandbrake ∧ c.idCommError ≠ c.idEncoderSpeed ∧ c.idHandbrake ≠ c.idEncoderSpeed) ∧
      (2 ≤ c.sigShift ∧ c.sigShift ≤ 6) ∧ c.systemMotorControl ∈ c.systemIds := by
  simp [configValid, systemIdValid, and_assoc]

/-- With valid parameters the step answers a next state or refuses the access. -/
theorem step_outcome {s : State} (hc : configValid s.config) :
    (nextAction s = .refuse .undefinedAccess ∧ step s = .refused .undefinedAccess) ∨ ∃ t, step s = .next t := by
  unfold step
  rcases nextAction_cases hc with
      e | ⟨-, e⟩ | ⟨_, -, e⟩ | ⟨_, _, -, -, -, e⟩ | ⟨_, _, _, -, -, -, -, e⟩ | ⟨w, _, -, e⟩ <;> simp only [e]
  · exact .inl ⟨trivial, trivial⟩
  · exact .inr ⟨_, rfl⟩
  · exact .inr ⟨_, rfl⟩
  · exact .inr ⟨_, rfl⟩
  · exact .inr ⟨_, rfl⟩
  · cases decode w with
    | error r => exact .inr ⟨_, rfl⟩
    | ok i =>
      obtain ⟨t, ht, -⟩ := exec_effect i (setCmd w (accessDone _ s))
      exact .inr ⟨t, ht⟩

/-- Settles O4: `configValid` is R8, the step refuses at once when it fails, and otherwise never with that refusal. -/
theorem invalidConfigurationRefused : Obligations.InvalidConfigurationRefused := by
  intro s
  rw [← configValid_iff]
  constructor
  · intro h hc
    rcases step_outcome hc with ⟨-, hrefused⟩ | ⟨t, hnext⟩
    · rw [hrefused] at h
      cases h
    · rw [hnext] at h
      cases h
  · intro hc
    rw [step, nextAction_invalid hc]

/-- The access check is that of R52. -/
theorem accessOffset_eq_none_iff {c : Config} {addr bytes : Nat} :
    accessOffset c addr bytes = none ↔ ¬ DefinedAccess c addr bytes := by
  simp [accessOffset, DefinedAccess]

theorem hostWrite_ne_refuse (off : Nat) (w : Word) (s : State) (r : Refusal) : hostWrite off w s ≠ .refuse r := by
  unfold hostWrite
  split <;> simp

/-- The step refuses an access exactly when the spec gives it no meaning. -/
theorem nextAction_eq_undefinedAccess_iff {s : State} (hc : configValid s.config) :
    nextAction s = .refuse .undefinedAccess ↔ ¬ NextInputDefined s := by
  unfold nextAction NextInputDefined
  rw [if_pos hc]
  cases s.host.pending with
  | nil => simp
  | cons x rest =>
    cases x with
    | reset => simp
    | read addr bytes =>
      rw [← accessOffset_eq_none_iff]
      cases ha : accessOffset s.config addr bytes <;> simp [ha]
    | write addr bytes w =>
      rw [← accessOffset_eq_none_iff]
      cases ha : accessOffset s.config addr bytes <;> simp [ha, hostWrite_ne_refuse]

/-- Settles O12: such an input is not one of those the spec gives a meaning. -/
theorem undefinedAccessRefused : Obligations.UndefinedAccessRefused := by
  intro s rest addr bytes w hc hundefined hp
  have hinput : ¬ NextInputDefined s := by
    rcases hp with hp | hp <;> rwa [NextInputDefined, hp]
  rw [step, (nextAction_eq_undefinedAccess_iff hc).mpr hinput]

/-- Settles O13: with valid parameters the step could only refuse an undefined access. -/
theorem everyDefinedInputCompletes : Obligations.EveryDefinedInputCompletes := by
  intro s hc hinput
  rcases step_outcome hc with ⟨hrefused, -⟩ | hnext
  · exact absurd hinput ((nextAction_eq_undefinedAccess_iff hc).mp hrefused)
  · exact hnext

/-! ### The step of each kind of input -/

/-- Settles O14: with no input pending the next action is to be done, in the same state. -/
theorem nothingHappensWithoutInput : Obligations.NothingHappensWithoutInput := by
  intro s hc hp
  simp only [step, nextAction, if_pos hc, hp]

/-- Settles O2: reset is the action `done` on `resetBlock`, which is the reset state of the same parameters. -/
theorem resetInputKeepsParameters : Obligations.ResetInputKeepsParameters := by
  intro s rest hc hp
  simp only [step, nextAction, if_pos hc, hp]
  rfl

/-- Settles O10: a write to CMD is the action `command`, on the state that holds the word. -/
theorem stepPerformsDecodedCommand : Obligations.StepPerformsDecodedCommand := by
  intro s rest w i hc hp hd
  simp only [step, nextAction_writeCmd hc hp, hd]

/-! ### The register map read by the host (20_memory R51) -/

theorem offset_of_mem_registerMap {off : Nat} {r : WindowReg} (h : (off, r) ∈ registerMap) : off = offsetOf r := by
  have hmap : ∀ p ∈ registerMap, p.1 = offsetOf p.2 := by decide
  exact hmap _ h

/-- Settles O16: the step of a read answers `readReg`, which is the register, or its bytes and fields as a number. -/
theorem hostReadReturnsRegister : Obligations.HostReadReturnsRegister := by
  intro s rest off r hc hmem hp
  rw [offset_of_mem_registerMap hmem] at hp
  refine ⟨readReg r s, step_readReg hc r hp, ?_⟩
  cases r with
  | status =>
    refine (statusWord_toNat s.status).trans ?_
    cases s.status.sticky <;> rfl
  | finLen | foutLen => exact BitVec.toNat_setWidth_of_le (by decide)
  | finPay0 | finPay1 | foutPay0 | foutPay1 => exact lanesOf_toNat _ _
  | cmd | finId | foutId | fwd | rev | dir | sig | sys | millis | xres => rfl

/-! ### The parameters and the host's side -/

/-- Settles O5: no command, no register and no reset writes the parameters. -/
theorem noStepChangesTheConfiguration : Obligations.NoStepChangesTheConfiguration := by
  intro s t h
  obtain ⟨-, hcases⟩ := step_cases h
  rcases hcases with ⟨-, rfl⟩ | ⟨rest, -, rfl⟩ | ⟨off, rest, -, rfl⟩ | ⟨off, w, rest, -, -, rfl⟩ |
    ⟨w, rest, i, -, -, heff⟩ | ⟨w, rest, e, -, -, rfl⟩
  · rfl
  · rfl
  · rfl
  · obtain ⟨-, -, hconfig, -⟩ := writeOffset_frame off w (accessDone rest s)
    exact hconfig
  · obtain ⟨hconfig, -⟩ := effect_frame heff
    exact hconfig
  · rfl

/-- The host's side after a step that consumed the input `x`, the word a read returned included. -/
theorem step_host {s t : State} {x : HostInput} {rest : List HostInput} (hp : s.host.pending = x :: rest)
    (h : step s = .next t) :
    (x = .reset ∧ t.host = { s.host with pending := rest }) ∨
    (∃ addr bytes v, x = .read addr bytes ∧ t.host = hostAfter s rest [v]) ∨
    ∃ addr bytes w, x = .write addr bytes w ∧ t.host = hostAfter s rest [] := by
  obtain ⟨-, hcases⟩ := step_cases h
  rcases hcases with ⟨hp', -⟩ | ⟨rest', hp', rfl⟩ | ⟨off, rest', hp', rfl⟩ | ⟨off, w, rest', hp', -, rfl⟩ |
    ⟨w, rest', i, hp', -, heff⟩ | ⟨w, rest', e, hp', -, rfl⟩ <;> rw [hp] at hp' <;> cases hp'
  · exact .inl ⟨rfl, rfl⟩
  · exact .inr (.inl ⟨_, _, _, rfl, rfl⟩)
  · obtain ⟨-, -, -, hhost⟩ := writeOffset_frame off w (accessDone rest s)
    exact .inr (.inr ⟨_, _, _, rfl, by rw [hhost, accessDone_eq]⟩)
  · obtain ⟨-, hhost, -⟩ := effect_frame heff
    exact .inr (.inr ⟨_, _, _, rfl, by rw [hhost, accessDone_eq]; rfl⟩)
  · exact .inr (.inr ⟨_, _, _, rfl, by rw [accessDone_eq]; rfl⟩)

/-- Settles O15: by the kind of the input consumed. -/
theorem hostSideAdvances : Obligations.HostSideAdvances := by
  intro s t x rest hp h
  rcases step_host hp h with ⟨rfl, hhost⟩ | ⟨addr, bytes, v, rfl, hhost⟩ | ⟨addr, bytes, w, rfl, hhost⟩ <;> rw [hhost]
  · exact ⟨rfl, rfl, [], (List.append_nil _).symm, rfl⟩
  · exact ⟨rfl, rfl, [v], rfl, rfl⟩
  · exact ⟨rfl, rfl, [], rfl, rfl⟩

/-! ### CMD (10_state R29) -/

/-- A host write elsewhere than to CMD leaves CMD. -/
theorem writeOffset_cmd {off : Nat} (h : regAt off ≠ some .cmd) (w : Word) (s : State) : (writeOffset off w s).cmd = s.cmd := by
  cases hr : regAt off with
  | none => simp only [writeOffset, hr]
  | some r =>
    simp only [writeOffset, hr]
    cases r with
    | cmd => exact absurd hr h
    | _ => rfl

/-- Settles O55: by cases on what a step can do. An access elsewhere is not at BASE, and no command writes CMD. -/
theorem cmdHoldsTheLastWordWritten : Obligations.CmdHoldsTheLastWordWritten := by
  refine ⟨fun s t h => ?_, fun s rest hc hp => step_readReg hc .cmd hp⟩
  obtain ⟨-, hcases⟩ := step_cases h
  rcases hcases with ⟨hp, rfl⟩ | ⟨rest, hp, rfl⟩ | ⟨off, rest, hp, rfl⟩ | ⟨off, w, rest, hp, hcmd, rfl⟩ |
    ⟨w, rest, i, hp, -, heff⟩ | ⟨w, rest, e, hp, -, rfl⟩ <;> simp only [hp]
  · rfl
  · rfl
  · have hoff : s.config.base + off ≠ s.config.base := by
      intro heq
      obtain rfl : off = 0 := by omega
      exact hcmd rfl
    rw [if_neg hoff, writeOffset_cmd hcmd, accessDone_cmd]
  · obtain ⟨-, -, hkept⟩ := effect_frame heff
    rw [if_pos trivial, hkept, setCmd_cmd]
  · rfl

/-! ### CODE and KIND (10_state R30) -/

theorem statusLegal_of_status_eq {s t : State} (h : t.status = s.status) (hs : StatusLegal s) : StatusLegal t := by
  unfold StatusLegal at hs ⊢
  rwa [h]

theorem statusLegal_endOk (k : Kind) (s : State) : StatusLegal (endOk k s) := ⟨codeBits_le .ok, kindBits_le k⟩

theorem statusLegal_raiseCode (c : StatusCode) (k : Kind) (s : State) : StatusLegal (raiseCode c k s) :=
  ⟨codeBits_le c, kindBits_le k⟩

theorem effect_statusLegal {i : Instr} {s t : State} (h : Effect i s t) (hs : StatusLegal s) : StatusLegal t := by
  cases h with
  | nop => exact hs
  | raised _ c _ k => exact statusLegal_raiseCode c k s
  | encodedHb | encodedCe | decodedHb | decodedCe | extracted | looped => exact statusLegal_endOk _ _

/-- Settles O44: a STATUS write keeps CODE and KIND, and every command that writes them writes encoded ones. -/
theorem statusStaysLegal : Obligations.StatusStaysLegal := by
  intro s t hs h
  obtain ⟨-, hcases⟩ := step_cases h
  rcases hcases with ⟨-, rfl⟩ | ⟨rest, -, rfl⟩ | ⟨off, rest, -, rfl⟩ | ⟨off, w, rest, -, -, rfl⟩ |
    ⟨w, rest, i, -, -, heff⟩ | ⟨w, rest, e, -, -, rfl⟩
  · exact hs
  · exact ⟨Nat.zero_le 7, Nat.zero_le 4⟩
  · exact hs
  · rcases writeOffset_status off w (accessDone rest s) with hkept | ⟨-, hwritten⟩
    · exact statusLegal_of_status_eq hkept hs
    · unfold StatusLegal
      rw [hwritten, statusWritten_code, statusWritten_kind]
      exact hs
  · exact effect_statusLegal heff hs
  · exact statusLegal_raiseCode .illegalCmd .none _

/-- Settles O45: FOUT is the zero frame, and CODE and KIND are 0. -/
theorem invariantsHoldAtReset : Obligations.InvariantsHoldAtReset :=
  ⟨foutInv_of_fout_zero rfl, by decide, by decide⟩

end Sys2Proof.MachineProofs

/-! PROOFS. Rules of all commands: what each may write (10_state R27), the codes each ends with (60_exceptions R201), and that none
reads more than its input (10_state R23). -/

namespace Sys2Proof.CommandProofs

open Sys2Proof.Machine Sys2Proof.Safety Sys2Proof.StateProofs Sys2Proof.EncoderProofs Sys2Proof.DecoderProofs
  Sys2Proof.ParserProofs Sys2Proof.ControlProofs Sys2Proof.MachineProofs

/-! ### What a command may write (10_state R27) -/

theorem effect_fin {i : Instr} {s t : State} (h : Effect i s t) : t.fin = s.fin ∨ i = .loop := by
  cases h with
  | looped hi => exact .inr hi
  | nop | raised | encodedHb | encodedCe | decodedHb | decodedCe | extracted => exact .inl rfl

theorem effect_heartbeatFields {i : Instr} {s t : State} (h : Effect i s t) :
    (t.fwd = s.fwd ∧ t.rev = s.rev ∧ t.dir = s.dir ∧ t.sig = s.sig) ∨
      (i = .decHb ∨ i = .dec) ∧ t.status.code = 0 ∧ t.status.kind = 1 := by
  cases h with
  | decodedHb hi => exact .inr ⟨hi, rfl, rfl⟩
  | nop | raised | encodedHb | encodedCe | decodedCe | extracted | looped => exact .inl ⟨rfl, rfl, rfl, rfl⟩

theorem effect_commErrorFields {i : Instr} {s t : State} (h : Effect i s t) :
    (t.sys = s.sys ∧ t.millis = s.millis) ∨ (i = .decCe ∨ i = .dec) ∧ t.status.code = 0 ∧ t.status.kind = 2 := by
  cases h with
  | decodedCe hi => exact .inr ⟨hi, rfl, rfl⟩
  | nop | raised | encodedHb | encodedCe | decodedHb | extracted | looped => exact .inl ⟨rfl, rfl⟩

theorem exec_nop {s t : State} (h : exec .nop s = .next t) : t = s := by cases h; rfl

/-- Settles O46: each clause is the lemma about that state, and CMD, the parameters and the host's side are the frame. -/
theorem commandsWriteOnlyTheirState : Obligations.CommandsWriteOnlyTheirState := by
  intro i s t h
  have heff := effect_of_exec h
  obtain ⟨hconfig, hhost, hcmd⟩ := effect_frame heff
  refine ⟨(effect_fin heff).resolve_left, fun hfout => ?_, fun hfields => ?_, fun hfields => ?_, (effect_xres heff).resolve_left,
    fun hstatus => ?_, hcmd, hconfig, hhost⟩
  · rcases effect_fout heff with ⟨hi, -⟩ | ⟨hi, -⟩ | hkept
    · exact .inl hi
    · exact .inr hi
    · exact absurd hkept hfout
  · refine (effect_heartbeatFields heff).resolve_left ?_
    rintro ⟨hfwd, hrev, hdir, hsig⟩
    simp [*] at hfields
  · refine (effect_commErrorFields heff).resolve_left ?_
    rintro ⟨hsys, hmillis⟩
    simp [*] at hfields
  · rintro rfl
    rw [exec_nop h] at hstatus
    exact hstatus rfl

/-- Settles O48: a command that completed has CODE = 0, and `raise` writes STATUS alone. -/
theorem failedCommandWritesStatusOnly : Obligations.FailedCommandWritesStatusOnly := by
  intro i s t h hi hcode
  cases effect_of_exec h with
  | nop hnop => exact absurd hnop hi
  | raised => rfl
  | encodedHb | encodedCe | decodedHb | decodedCe | extracted | looped => exact absurd rfl hcode

/-! ### The codes a command can end with (60_exceptions R201) -/

theorem code_endOk_mem {codes : List Nat} (h : 0 ∈ codes) (k : Kind) (s : State) :
    (endOk k s).status.code.toNat ∈ codes := h

theorem code_raiseCode_mem {c : StatusCode} {codes : List Nat} (h : (codeBits c).toNat ∈ codes) (k : Kind) (s : State) :
    (raiseCode c k s).status.code.toNat ∈ codes := h

/-- The heartbeat field check ends with OK or BAD_FIELD. -/
theorem code_decodeHeartbeatFields_mem {codes : List Nat} (hok : 0 ∈ codes) (hbad : 3 ∈ codes) (k : Kind) (s : State) :
    (decodeHeartbeatFields k s).status.code.toNat ∈ codes := by
  rcases decodeHeartbeatFields_cases k s with e | ⟨f, r, d, g, e⟩ <;> rw [e]
  · exact code_raiseCode_mem (c := .badField) hbad k s
  · exact code_endOk_mem hok _ _

/-- The comm-error field check ends with OK or BAD_FIELD. -/
theorem code_decodeCommErrorFields_mem {codes : List Nat} (hok : 0 ∈ codes) (hbad : 3 ∈ codes) (k : Kind) (s : State) :
    (decodeCommErrorFields k s).status.code.toNat ∈ codes := by
  rcases decodeCommErrorFields_cases k s with e | ⟨y, m, e⟩ <;> rw [e]
  · exact code_raiseCode_mem (c := .badField) hbad k s
  · exact code_endOk_mem hok _ _

theorem code_decHb {s t : State} (h : exec .decHb s = .next t) : t.status.code.toNat ∈ [0, 1, 2, 3] := by
  cases h
  split_ifs
  · exact code_raiseCode_mem (c := .wrongLength) (by decide) .none s
  · exact code_raiseCode_mem (c := .wrongIdentifier) (by decide) .none s
  · exact code_decodeHeartbeatFields_mem (by decide) (by decide) .none s

theorem code_decCe {s t : State} (h : exec .decCe s = .next t) : t.status.code.toNat ∈ [0, 1, 2, 3] := by
  cases h
  split_ifs
  · exact code_raiseCode_mem (c := .wrongLength) (by decide) .none s
  · exact code_raiseCode_mem (c := .wrongIdentifier) (by decide) .none s
  · exact code_decodeCommErrorFields_mem (by decide) (by decide) .none s

/-- What DEC does to a frame whose identifier stands for the kind `k` (41_decoder R134). -/
def decodeKind : Kind → State → State
  | .none => raiseCode .unknownKind .none
  | .heartbeat => decodeHeartbeatFrame .heartbeat
  | .commError => decodeCommErrorFrame .commError
  | .handbrake => raiseCode .reservedKind .handbrake
  | .encoderSpeed => raiseCode .reservedKind .encoderSpeed

theorem exec_dec (s : State) : exec .dec s = .next (decodeKind (classify s.config s.fin.id) s) := by
  rw [exec, execDec]
  cases classify s.config s.fin.id <;> rfl

theorem code_decodeKind (k : Kind) (s : State) : (decodeKind k s).status.code.toNat ∈ [0, 1, 3, 4, 5] := by
  cases k with
  | none => exact code_raiseCode_mem (c := .unknownKind) (by decide) .none s
  | handbrake => exact code_raiseCode_mem (c := .reservedKind) (by decide) .handbrake s
  | encoderSpeed => exact code_raiseCode_mem (c := .reservedKind) (by decide) .encoderSpeed s
  | heartbeat =>
    rw [decodeKind, decodeHeartbeatFrame]
    split_ifs
    · exact code_raiseCode_mem (c := .wrongLength) (by decide) .heartbeat s
    · exact code_decodeHeartbeatFields_mem (by decide) (by decide) .heartbeat s
  | commError =>
    rw [decodeKind, decodeCommErrorFrame]
    split_ifs
    · exact code_raiseCode_mem (c := .wrongLength) (by decide) .commError s
    · exact code_decodeCommErrorFields_mem (by decide) (by decide) .commError s

/-- The three ends of EXTRACT, as codes. -/
theorem code_leave_mem (e : ExtractEnd) (s : State) : (e.leave s).status.code.toNat ∈ [0, 1, 6] := by
  cases e with
  | field x => exact code_endOk_mem (by decide) .none _
  | badDescriptor => exact code_raiseCode_mem (c := .badDescriptor) (by decide) .none s
  | wrongLength => exact code_raiseCode_mem (c := .wrongLength) (by decide) .none s

/-- Settles O49: command by command, the codes of its branches. -/
theorem codesOfEachCommand : Obligations.CodesOfEachCommand := by
  intro i s t h
  cases i with
  | nop => rw [exec_nop h]
  | encHb | encCe | loop => cases h; rfl
  | decHb => exact code_decHb h
  | decCe => exact code_decCe h
  | dec =>
    rw [exec_dec] at h
    cases h
    exact code_decodeKind _ s
  | extract off nb o sh w =>
    rw [exec_extract] at h
    cases h
    exact code_leave_mem _ s

/-! ### Two encodes in a row (40_encoder section 3) -/

/-- Settles O28: an encode command keeps the fields and the parameters, and the second replaces all that the first wrote. -/
theorem secondEncodeOverwritesFirst : Obligations.SecondEncodeOverwritesFirst := by
  intro s i j hi hj
  simp only [List.mem_cons, List.not_mem_nil, or_false] at hi hj
  rcases hi with rfl | rfl <;> rcases hj with rfl | rfl <;> exact ⟨_, _, _, rfl, rfl, rfl, rfl⟩

/-! ### What the decode commands and EXTRACT read

They read FIN, its payload below FIN.LEN only, and the parameters, and their result does not depend on the state it is written to.
Such a command reads the same again after it has run, and when the bytes beyond FIN.LEN are others. -/

/-- The state `u` holds what the decode commands and EXTRACT may read in `s`. -/
structure SameInput (s u : State) : Prop where
  config : u.config = s.config
  id : u.fin.id = s.fin.id
  len : u.fin.len = s.fin.len
  bytes : ∀ k, k < 8 → k < s.fin.len.toNat → payByte u.fin.pay k = payByte s.fin.pay k

/-- Writing a result that is fixed beforehand: FIN and the parameters stay, and writing it again changes nothing. -/
structure WritesResult (e : State → State) : Prop where
  fin : ∀ u, (e u).fin = u.fin
  config : ∀ u, (e u).config = u.config
  again : ∀ u, e (e u) = e u
  setFin : ∀ f u, e (setFin f u) = setFin f (e u)

/-- In all states with the input of `s`, the command `F` writes one and the same result. -/
def ReadsOnlyInput (s : State) (F : State → State) : Prop :=
  ∃ e, WritesResult e ∧ ∀ u, SameInput s u → F u = e u

theorem writesResult_raiseCode (c : StatusCode) (k : Kind) : WritesResult (raiseCode c k) :=
  ⟨fun _ => rfl, fun _ => rfl, fun _ => rfl, fun _ _ => rfl⟩

theorem writesResult_heartbeat (f r d g : Word) : WritesResult fun u => endOk .heartbeat (setHeartbeat f r d g u) :=
  ⟨fun _ => rfl, fun _ => rfl, fun _ => rfl, fun _ _ => rfl⟩

theorem writesResult_commError (y m : Word) : WritesResult fun u => endOk .commError (setCommError y m u) :=
  ⟨fun _ => rfl, fun _ => rfl, fun _ => rfl, fun _ _ => rfl⟩

theorem writesResult_leave (e : ExtractEnd) : WritesResult e.leave := by
  cases e <;> exact ⟨fun _ => rfl, fun _ => rfl, fun _ => rfl, fun _ _ => rfl⟩

theorem readsOnlyInput_raiseCode (c : StatusCode) (k : Kind) (s : State) : ReadsOnlyInput s (raiseCode c k) :=
  ⟨_, writesResult_raiseCode c k, fun _ _ => rfl⟩

/-- A choice whose condition depends on the input alone. -/
theorem readsOnlyInput_ite {s : State} {p : State → Prop} [∀ u, Decidable (p u)] {F G : State → State}
    (hp : ∀ u, SameInput s u → (p u ↔ p s)) (hF : p s → ReadsOnlyInput s F) (hG : ¬ p s → ReadsOnlyInput s G) :
    ReadsOnlyInput s fun u => if p u then F u else G u := by
  by_cases h : p s
  · obtain ⟨e, he, hrun⟩ := hF h
    exact ⟨e, he, fun u hu => (if_pos ((hp u hu).mpr h)).trans (hrun u hu)⟩
  · obtain ⟨e, he, hrun⟩ := hG h
    exact ⟨e, he, fun u hu => (if_neg (mt (hp u hu).mp h)).trans (hrun u hu)⟩

/-- A frame of length 3 has its bytes 0 to 2 below FIN.LEN, which are all that the heartbeat field check reads. -/
theorem readsOnlyInput_decodeHeartbeatFields (k : Kind) {s : State} (hlen : s.fin.len.toNat = 3) :
    ReadsOnlyInput s (decodeHeartbeatFields k) := by
  have hbyte {u : State} (hu : SameInput s u) (j : Nat) (hj : j < 3) : payByte u.fin.pay j = payByte s.fin.pay j :=
    hu.bytes j (by omega) (by omega)
  refine readsOnlyInput_ite (fun u hu => by rw [hbyte hu 2 (by decide)]) (fun _ => readsOnlyInput_raiseCode .badField k s)
    fun _ => ⟨_, writesResult_heartbeat ((payByte s.fin.pay 0).setWidth 32) ((payByte s.fin.pay 1).setWidth 32)
      ((directionOf (payByte s.fin.pay 2)).setWidth 32) ((signalsOf s.config (payByte s.fin.pay 2)).setWidth 32),
      fun u hu => ?_⟩
  simp only [hbyte hu 0 (by decide), hbyte hu 1 (by decide), hbyte hu 2 (by decide), hu.config]

theorem payBytes_congr {p q : Payload} {off nb : Nat} (h : ∀ k, k < off + nb → payByte p k = payByte q k) :
    payBytes p off nb = payBytes q off nb := by
  unfold payBytes
  refine List.map_congr_left fun k hk => h _ ?_
  have := List.mem_range.mp hk
  omega

/-- A frame of length 5 has its bytes 0 to 4 below FIN.LEN, which are all that the comm-error field check reads. -/
theorem readsOnlyInput_decodeCommErrorFields (k : Kind) {s : State} (hlen : s.fin.len.toNat = 5) :
    ReadsOnlyInput s (decodeCommErrorFields k) := by
  have hbyte {u : State} (hu : SameInput s u) (j : Nat) (hj : j < 5) : payByte u.fin.pay j = payByte s.fin.pay j :=
    hu.bytes j (by omega) (by omega)
  refine readsOnlyInput_ite (fun u hu => by rw [hbyte hu 0 (by decide), hu.config])
    (fun _ => ⟨_, writesResult_commError ((payByte s.fin.pay 0).setWidth 32)
      (BitVec.ofNat 32 (assemble s.config.ceOrder (payBytes s.fin.pay 1 4))), fun u hu => ?_⟩)
    fun _ => readsOnlyInput_raiseCode .badField k s
  simp only [hbyte hu 0 (by decide), payBytes_congr (off := 1) (nb := 4) (hbyte hu), hu.config]

/-- The length check, before what the command does to a frame of its length. -/
theorem readsOnlyInput_checkLen {s : State} {n : Byte} (k : Kind) {F : State → State}
    (hF : s.fin.len = n → ReadsOnlyInput s F) :
    ReadsOnlyInput s fun u => if u.fin.len ≠ n then raiseCode .wrongLength k u else F u :=
  readsOnlyInput_ite (fun u hu => by rw [hu.len]) (fun _ => readsOnlyInput_raiseCode .wrongLength k s)
    fun hlen => hF (of_not_not hlen)

/-- The identifier check of DEC.HB and DEC.CE, against the parameter `param`. -/
theorem readsOnlyInput_checkId {s : State} (param : Config → Word) {F : State → State} (hF : ReadsOnlyInput s F) :
    ReadsOnlyInput s fun u => if u.fin.id ≠ param u.config then raiseCode .wrongIdentifier .none u else F u :=
  readsOnlyInput_ite (fun u hu => by rw [hu.id, hu.config]) (fun _ => readsOnlyInput_raiseCode .wrongIdentifier .none s)
    fun _ => hF

theorem readsOnlyInput_decodeKind (k : Kind) (s : State) : ReadsOnlyInput s (decodeKind k) := by
  cases k with
  | none => exact readsOnlyInput_raiseCode .unknownKind .none s
  | handbrake => exact readsOnlyInput_raiseCode .reservedKind .handbrake s
  | encoderSpeed => exact readsOnlyInput_raiseCode .reservedKind .encoderSpeed s
  | heartbeat =>
    exact readsOnlyInput_checkLen .heartbeat fun hlen =>
      readsOnlyInput_decodeHeartbeatFields .heartbeat (congrArg BitVec.toNat hlen)
  | commError =>
    exact readsOnlyInput_checkLen .commError fun hlen =>
      readsOnlyInput_decodeCommErrorFields .commError (congrArg BitVec.toNat hlen)

/-- How an EXTRACT ends depends on FIN.LEN and the bytes below it: those of a descriptor that passes both checks are below it. -/
theorem extractEnd_congr {s u : State} (hu : SameInput s u) (d : Descriptor) :
    extractEnd d u.fin.len u.fin.pay = extractEnd d s.fin.len s.fin.pay := by
  unfold extractEnd
  rw [hu.len]
  split_ifs with hd hlen
  · rfl
  · rfl
  · have hbytes : payBytes u.fin.pay d.off d.nb = payBytes s.fin.pay d.off d.nb :=
      payBytes_congr fun k hk => hu.bytes k (by omega) (by omega)
    rw [unpack, unpack, hbytes]

/-- A command that is none of NOP, the encoders and LOOP reads only its input. -/
theorem exec_readsOnlyInput {i : Instr} (hi : i ∉ [Instr.nop, .encHb, .encCe, .loop]) (s : State) :
    ∃ F, ReadsOnlyInput s F ∧ ∀ u, exec i u = .next (F u) := by
  cases i with
  | nop | encHb | encCe | loop => simp at hi
  | decHb =>
    refine ⟨_, readsOnlyInput_checkLen .none fun hlen => readsOnlyInput_checkId Config.idHeartbeat ?_, fun _ => rfl⟩
    exact readsOnlyInput_decodeHeartbeatFields .none (congrArg BitVec.toNat hlen)
  | decCe =>
    refine ⟨_, readsOnlyInput_checkLen .none fun hlen => readsOnlyInput_checkId Config.idCommError ?_, fun _ => rfl⟩
    exact readsOnlyInput_decodeCommErrorFields .none (congrArg BitVec.toNat hlen)
  | dec =>
    obtain ⟨e, he, hrun⟩ := readsOnlyInput_decodeKind (classify s.config s.fin.id) s
    exact ⟨_, ⟨e, he, fun u hu => by rw [hu.config, hu.id, hrun u hu]⟩, exec_dec⟩
  | extract off nb o sh w =>
    exact ⟨_, ⟨_, writesResult_leave _, fun u hu => by rw [extractEnd_congr hu]⟩, exec_extract off nb o sh w⟩

/-- Settles O50: NOP is the identity, the encoders and LOOP write over what they wrote, and the others find their input unchanged. -/
theorem commandsAreIdempotent : Obligations.CommandsAreIdempotent := by
  intro i s
  by_cases hi : i ∈ [Instr.nop, .encHb, .encCe, .loop]
  · simp only [List.mem_cons, List.not_mem_nil, or_false] at hi
    rcases hi with rfl | rfl | rfl | rfl <;> exact ⟨_, rfl, rfl⟩
  · obtain ⟨F, ⟨e, he, hF⟩, hexec⟩ := exec_readsOnlyInput hi s
    have hs : F s = e s := hF s ⟨rfl, rfl, rfl, fun _ _ _ => rfl⟩
    have hagain : F (e s) = e (e s) :=
      hF _ ⟨he.config s, by rw [he.fin], by rw [he.fin], fun _ _ _ => by rw [he.fin]⟩
    exact ⟨e s, by rw [hexec, hs], by rw [hexec, hagain, he.again]⟩

/-- Settles O51: NOP, the encoders and LOOP do not read FIN's payload, and to the others the two payloads are the same input. -/
theorem bytesBeyondLengthNotRead : Obligations.BytesBeyondLengthNotRead := by
  intro i s q hq
  by_cases hi : i ∈ [Instr.nop, .encHb, .encCe, .loop]
  · simp only [List.mem_cons, List.not_mem_nil, or_false] at hi
    rcases hi with rfl | rfl | rfl | rfl <;> exact ⟨_, rfl, rfl⟩
  · obtain ⟨F, ⟨e, he, hF⟩, hexec⟩ := exec_readsOnlyInput hi s
    have hloop : i ≠ .loop := by
      rintro rfl
      simp at hi
    have hs : F s = e s := hF s ⟨rfl, rfl, rfl, fun _ _ _ => rfl⟩
    have hset : F (setFin { s.fin with pay := q } s) = setFin { (e s).fin with pay := q } (e s) := by
      rw [hF (setFin { s.fin with pay := q } s) ⟨rfl, rfl, rfl, hq⟩, he.setFin, he.fin]
    refine ⟨e s, by rw [hexec, hs], ?_⟩
    rw [if_neg hloop]
    exact (hexec _).trans (congrArg _ hset)

end Sys2Proof.CommandProofs

/-! PROOFS. Layout and frames: Unpack after Pack (30_encoding R77, R78), the comm-error rows packed (R76), and what a decoder makes of
an encoded frame (41_decoder section 3). -/

namespace Sys2Proof.FrameProofs

open Sys2Proof.Machine Sys2Proof.Safety Sys2Proof.MemoryProofs Sys2Proof.EncodingProofs Sys2Proof.EncoderProofs
  Sys2Proof.DecoderProofs

/-! ### Pack, then Unpack (30_encoding R77, R78) -/

/-- Settles O42: bit by bit. Inside the width, bit `j` that Unpack reads is the field bit that Pack wrote from bit `j` of the value. -/
theorem unpackAfterPack : Obligations.UnpackAfterPack := by
  intro p d v hd hwidth
  obtain ⟨hoff, hfield⟩ : d.off + d.nb ≤ cap ∧ d.shift + d.width ≤ 8 * d.nb := by simpa [descriptorValid] using hd
  apply Nat.eq_of_testBit_eq
  intro j
  rw [BitVec.testBit_toNat, unpack_testBit, assemble_pack p v hoff, Nat.testBit_mod_two_pow]
  by_cases hj : j < d.width
  · have hj32 : j < 32 := by omega
    rw [packedRaw_testBit _ d v (by omega), if_pos (by omega), Nat.add_sub_cancel_left]
    simp [hj, hj32]
  · simp [hj]

/-- A field of all four bytes takes the whole value: no bit of `raw` is left. -/
theorem packedRaw_fourBytes_toNat (raw off : Nat) (o : ByteOrder) (v : Word) :
    (packedRaw raw ⟨off, 4, o, 0, 32⟩ v).toNat = v.toNat := by
  apply Nat.eq_of_testBit_eq
  intro m
  by_cases hm : m < 32
  · rw [packedRaw_testBit _ _ _ hm, if_pos (by simpa using hm), Nat.sub_zero]
  · rw [BitVec.testBit_toNat, BitVec.testBit_toNat, BitVec.getLsbD_of_ge _ _ (by simp only; omega),
      BitVec.getLsbD_of_ge _ _ (by omega)]

theorem pack_fourBytes (p : Payload) (off : Nat) (o : ByteOrder) (v : Word) :
    pack p ⟨off, 4, o, 0, 32⟩ v = putBytes p off (splitBytes o v.toNat 4) := by
  rw [pack, packedRaw_fourBytes_toNat]

theorem packKind_commError (s : State) (p : Payload) :
    packKind .commError s p = pack (pack p ⟨0, 1, .le, 0, 8⟩ s.sys) ⟨1, 4, s.config.ceOrder, 0, 32⟩ s.millis := rfl

/-- The comm-error rows packed into the zero payload, byte by byte: SYS, the four bytes of MILLIS, zeros. -/
theorem payByte_packKind_commError (s : State) {k : Nat} (hk : k < 8) :
    payByte (packKind .commError s zeroPayload) k =
      (s.sys.setWidth 8 :: splitBytes s.config.ceOrder s.millis.toNat 4).getD k 0 := by
  rw [packKind_commError, pack_fourBytes, payByte_putBytes _ _ _ _ hk, splitBytes_length]
  cases k with
  | zero =>
    rw [if_neg (by omega), payByte_pack_wholeByte (by decide), List.getD_cons_zero]
  | succ j =>
    rw [List.getD_cons_succ, Nat.add_sub_cancel]
    split_ifs with h
    · rfl
    · rw [payByte_pack_of_ne hk _ _ (by omega), payByte_zeroPayload, List.getD_eq_default]
      rw [splitBytes_length]
      omega

/-- Settles O26: the two payloads agree byte by byte. -/
theorem encCePacksTheLayoutTable : Obligations.EncCePacksTheLayoutTable := fun s =>
  ⟨_, exec_encCe s, payload_ext fun _ hk => (payByte_commErrorFrame s hk).trans (payByte_packKind_commError s hk).symm⟩

/-! ### A decoder and an encoded frame (41_decoder section 3) -/

theorem setWidth_two_eq_three_iff (x : Word) : x.setWidth 2 = (3 : BitVec 2) ↔ x.toNat % 4 = 3 := by
  rw [← BitVec.toNat_inj, BitVec.toNat_setWidth]
  rfl

/-- A value cut to a wire width and widened again, as a number. -/
theorem setWidth_setWidth_toNat (x : Word) {w : Nat} (hw : w ≤ 32) : ((x.setWidth w).setWidth 32).toNat = x.toNat % 2 ^ w := by
  rw [BitVec.toNat_setWidth_of_le hw, BitVec.toNat_setWidth]

/-- Settles O34: the frame decodes to the signals truncated to two bits, and HAZARD has two bits. -/
theorem hazardDecodesAsBothSignals : Obligations.HazardDecodesAsBothSignals := by
  intro s hc hsig hdir
  have hdecoded := decodeHeartbeatFrame_heartbeatFrame .none s (encodedAndLooped (heartbeatFrame s) s) hc rfl rfl
  rw [if_neg (mt (setWidth_two_eq_three_iff s.dir).mp hdir)] at hdecoded
  refine ⟨_, (runAll_encHb_loop .decHb s).trans (exec_decHb_of_idHeartbeat rfl), ?_⟩
  rw [hdecoded, endOk_sig, setHeartbeat_sig, hsig]
  decide

/-- Settles O35: the frame in `b`'s FIN is the encoder's, and its decoding with the shared parameters is known. -/
theorem frameExchangeDeliversTruncatedFields : Obligations.FrameExchangeDeliversTruncatedFields := by
  intro a b hc hconfig
  constructor
  · have hid : (heartbeatFrame a).id = b.config.idHeartbeat := by rw [hconfig]; rfl
    refine ⟨_, _, exec_encHb a, exec_dec_of_idHeartbeat hid, ?_⟩
    rw [decodeHeartbeatFrame_heartbeatFrame .heartbeat a { b with fin := heartbeatFrame a } hc hconfig rfl]
    simp only [setWidth_two_eq_three_iff]
    split_ifs
    · rfl
    · exact ⟨setWidth_setWidth_toNat a.fwd (by decide), setWidth_setWidth_toNat a.rev (by decide),
        setWidth_setWidth_toNat a.dir (by decide), setWidth_setWidth_toNat a.sig (by decide), rfl, rfl, rfl⟩
  · have hid : (commErrorFrame a).id = b.config.idCommError := by rw [hconfig]; rfl
    have hvalid : systemIdValid a.config (a.sys.setWidth 8) = true ↔ a.sys.setWidth 8 ∈ a.config.systemIds :=
      List.contains_iff_mem
    refine ⟨_, _, exec_encCe a, exec_dec_of_idCommError (hconfig ▸ hc) hid, ?_⟩
    rw [decodeCommErrorFrame_commErrorFrame .commError a { b with fin := commErrorFrame a } hconfig rfl]
    simp only [hvalid, ite_not]
    split_ifs
    · exact ⟨setWidth_setWidth_toNat a.sys (by decide), rfl, rfl, rfl, rfl, rfl, rfl⟩
    · rfl

end Sys2Proof.FrameProofs

/-! PROOFS. The assembler and host programs of 30_encoding section 5: the commands that lines name (R90, R92), their words, and the
accesses of program lines (R91). -/

namespace Sys2Proof.AssemblerProofs

open Sys2Proof.Machine Sys2Proof.Safety Sys2Proof.ParserProofs Sys2Proof.WordProofs

/-! ### The commands that lines name (30_encoding R90, R92) -/

theorem isMnemonic_iff (text : List Char) (m : String) : isMnemonic text m = true ↔ text.map Char.toUpper = m.toList := by
  simp [isMnemonic]

/-- Each row of the tables is found: the names before it in the assembler's order are other names. -/
theorem commandNamed_of_commandSyntax {c : Config} {text : List Char} {ops : List AsmOperand} {i : Instr}
    (h : CommandSyntax c text ops i) : commandNamed c text ops = some i := by
  unfold CommandSyntax at h
  rcases h with ⟨h, rfl, rfl⟩ | ⟨h, rfl, rfl⟩ | ⟨h, rfl, rfl⟩ | ⟨h, rfl, rfl⟩ | ⟨h, rfl, rfl⟩ | ⟨h, rfl, rfl⟩ | ⟨h, rfl, rfl⟩ |
    ⟨h, off, nb, sh, w, ⟨rfl, rfl⟩ | ⟨rfl, rfl⟩⟩ | ⟨h, off, rfl, rfl⟩ | ⟨h, rfl, rfl⟩ | ⟨h, rfl, rfl⟩ | ⟨h, rfl, rfl⟩ <;>
    simp only [commandNamed, isMnemonic, h] <;> rfl

theorem orderNamed_eq_some_iff {text : List Char} {o : ByteOrder} :
    orderNamed text = some o ↔ (text = "LE".toList ∧ o = .le) ∨ (text = "BE".toList ∧ o = .be) := by
  simp only [orderNamed, beq_iff_eq]
  constructor
  · intro h
    split_ifs at h with hle hbe <;> cases h
    · exact .inl ⟨hle, rfl⟩
    · exact .inr ⟨hbe, rfl⟩
  · rintro (⟨rfl, rfl⟩ | ⟨rfl, rfl⟩) <;> decide

/-- A line with no operands: the ten names, tried one after another. -/
theorem commandSyntax_of_commandNamed_nil {c : Config} {text : List Char} {i : Instr} (h : commandNamed c text [] = some i) :
    CommandSyntax c text [] i := by
  simp only [commandNamed, isMnemonic_iff, ite_eq_iff, Option.some.injEq, reduceCtorEq, and_false, or_false] at h
  simp only [CommandSyntax, true_and]
  rcases h with ⟨hm, rfl⟩ | ⟨-, ⟨hm, rfl⟩ | ⟨-, ⟨hm, rfl⟩ | ⟨-, ⟨hm, rfl⟩ | ⟨-, ⟨hm, rfl⟩ | ⟨-, ⟨hm, rfl⟩ | ⟨-, ⟨hm, rfl⟩ |
    ⟨-, ⟨hm, rfl⟩ | ⟨-, ⟨hm, rfl⟩ | ⟨-, hm, rfl⟩⟩⟩⟩⟩⟩⟩⟩⟩ <;>
    simp only [hm, extractDir, extractSig, extractMillis, and_self, true_or, or_true]

theorem commandSyntax_of_commandNamed {c : Config} {text : List Char} {ops : List AsmOperand} {i : Instr}
    (h : commandNamed c text ops = some i) : CommandSyntax c text ops i := by
  unfold commandNamed at h
  split at h
  · exact commandSyntax_of_commandNamed_nil h
  · simp only [isMnemonic_iff, ite_eq_iff, Option.some.injEq, reduceCtorEq, and_false, or_false] at h
    obtain ⟨hm, rfl⟩ := h
    simp [CommandSyntax, hm, extractByte]
  · simp only [isMnemonic_iff, ite_eq_iff, Option.map_eq_some_iff, orderNamed_eq_some_iff, reduceCtorEq, and_false,
      or_false] at h
    obtain ⟨hm, o, ⟨rfl, rfl⟩ | ⟨rfl, rfl⟩, rfl⟩ := h <;> simp [CommandSyntax, hm]
  · cases h

theorem commandNamed_eq_some_iff (c : Config) (text : List Char) (ops : List AsmOperand) (i : Instr) :
    commandNamed c text ops = some i ↔ CommandSyntax c text ops i :=
  ⟨commandSyntax_of_commandNamed, commandNamed_of_commandSyntax⟩

/-! ### The word of a command line -/

/-- The assembler's word is the one that decodes to the command named. -/
theorem assembleCommand_eq_some_iff (c : Config) (text : List Char) (ops : List AsmOperand) (w : Word) :
    assembleCommand c text ops = some w ↔
      ∃ i, commandNamed c text ops = some i ∧ i.wellFormed = true ∧ decode w = .ok i := by
  unfold assembleCommand
  constructor
  · intro h
    cases hi : commandNamed c text ops with
    | none => simp [hi] at h
    | some i =>
      simp only [hi, Option.ite_none_right_eq_some, Option.some.injEq] at h
      obtain ⟨hwf, rfl⟩ := h
      exact ⟨i, rfl, hwf, decodeEncodeRoundTrip i hwf⟩
  · rintro ⟨i, hi, hwf, hd⟩
    simp only [hi, hwf, if_true, encode_of_decode_eq_ok hd]

/-- A line that names no command with operands in range gets no word. -/
theorem assembleCommand_eq_none {c : Config} {text : List Char} {ops : List AsmOperand}
    (h : ∀ i, commandNamed c text ops = some i → ¬ i.wellFormed = true) : assembleCommand c text ops = none := by
  rw [Option.eq_none_iff_forall_ne_some]
  intro w hw
  obtain ⟨i, hi, hwf, -⟩ := (assembleCommand_eq_some_iff c text ops w).mp hw
  exact h i hi hwf

/-- With one number a line can only name EXTRACT.B (30_encoding R92). -/
theorem commandNamed_byte {c : Config} {text : List Char} {off : Nat} {i : Instr}
    (h : commandNamed c text [.num off] = some i) : i = .extract off 1 .le 0 8 := by
  simp only [commandNamed, Option.ite_none_right_eq_some, Option.some.injEq] at h
  obtain ⟨-, rfl⟩ := h
  rfl

/-- With five operands a line can only name the EXTRACT of those operands. -/
theorem commandNamed_extract {c : Config} {text order : List Char} {off nb sh w : Nat} {i : Instr}
    (h : commandNamed c text [.num off, .num nb, .name order, .num sh, .num w] = some i) :
    ∃ o, i = .extract off nb o sh w := by
  simp only [commandNamed, Option.ite_none_right_eq_some, Option.map_eq_some_iff] at h
  obtain ⟨-, o, -, rfl⟩ := h
  exact ⟨o, rfl⟩

/-! ### The accesses of program lines -/

theorem definedAccess_offsetOf (c : Config) (r : WindowReg) : DefinedAccess c (c.base + offsetOf r) 4 := by
  obtain ⟨hlt, h4⟩ := offsetOf_lt r
  exact ⟨rfl, by omega, by omega, by omega⟩

/-- A program line reads a register or writes one. -/
theorem assembleLine_cases {c : Config} {l : AsmLine} {x : HostInput} (h : assembleLine c l = some x) :
    ∃ r, x = readFrom c r ∨ ∃ w, x = writeTo c r w := by
  cases l with
  | wr reg value =>
    cases hr : regNamed reg with
    | none => simp [assembleLine, hr] at h
    | some r =>
      simp only [assembleLine, hr, Option.ite_none_right_eq_some, Option.some.injEq] at h
      obtain ⟨-, rfl⟩ := h
      exact ⟨r, .inr ⟨_, rfl⟩⟩
  | rd reg =>
    obtain ⟨r, -, rfl⟩ := Option.map_eq_some_iff.mp h
    exact ⟨r, .inl rfl⟩
  | cmd mnemonic operands =>
    obtain ⟨w, -, rfl⟩ := Option.map_eq_some_iff.mp h
    exact ⟨.cmd, .inr ⟨w, rfl⟩⟩
  | clrSticky =>
    cases h
    exact ⟨.status, .inr ⟨_, rfl⟩⟩

/-- Settles O9: the names are those of the tables, the decoder undoes the encoder, and every register's offset is in the window. -/
theorem assembledWordsDecode : Obligations.AssembledWordsDecode := by
  refine ⟨commandNamed_eq_some_iff, assembleCommand_eq_some_iff, fun c text order off nb sh w hrange => ?_,
    fun c text off hoff => ?_, fun c l x h => ?_⟩
  · refine assembleCommand_eq_none fun i hi hwf => ?_
    obtain ⟨o, rfl⟩ := commandNamed_extract hi
    rw [wellFormed_extract_iff] at hwf
    omega
  · refine assembleCommand_eq_none fun i hi hwf => ?_
    rw [commandNamed_byte hi, wellFormed_extract_iff] at hwf
    omega
  · obtain ⟨r, rfl | ⟨w, rfl⟩⟩ := assembleLine_cases h
    · exact .inl ⟨_, rfl, definedAccess_offsetOf c r⟩
    · exact .inr ⟨_, w, rfl, definedAccess_offsetOf c r⟩

/-! ### Register names (20_memory R51) -/

/-- Each name of the table is that of a register at the offset beside it. -/
theorem regNamed_of_mem_registerNames {p : String × Nat} (hp : p ∈ registerNames) :
    ∃ r, regNamed p.1.toList = some r ∧ offsetOf r = p.2 := by
  have htable : ∀ p ∈ registerNames, (regNamed p.1.toList).map offsetOf = some p.2 := by decide
  exact Option.map_eq_some_iff.mp (htable p hp)

theorem regNamed_eq_none {reg : List Char} (h : ∀ p ∈ registerNames, reg ≠ p.1.toList) : regNamed reg = none := by
  simp only [registerNames, List.forall_mem_cons] at h
  simp only [regNamed, beq_iff_eq, h, if_false]

/-! ### Whole programs -/

/-- Mapping a partial function over a list succeeds when it does on each element, in order. -/
theorem mapM_eq_some_iff_forall₂ {α β : Type} {f : α → Option β} {as : List α} {bs : List β} :
    as.mapM f = some bs ↔ List.Forall₂ (fun a b => f a = some b) as bs := by
  induction as generalizing bs with
  | nil => cases bs <;> simp
  | cons a as ih => cases bs <;> simp [List.mapM_cons, Option.bind_eq_some_iff, ih]

/-- A program that loads replaces what the host has pending, and nothing else. -/
theorem loadProgram_eq_some_iff {lines : List AsmLine} {s t : State} :
    loadProgram lines s = some t ↔
      t = { s with host := { s.host with pending := t.host.pending } } ∧
        List.Forall₂ (fun line x => assembleLine s.config line = some x) lines t.host.pending := by
  rw [loadProgram, Option.map_eq_some_iff, ← mapM_eq_some_iff_forall₂]
  constructor
  · rintro ⟨l, hl, rfl⟩
    exact ⟨rfl, hl⟩
  · rintro ⟨ht, hl⟩
    exact ⟨_, hl, ht.symm⟩

/-- Settles O56: a name of the table is a register at its offset, no other name is, and a program is assembled line by line. -/
theorem programLinesAreTheirAccesses : Obligations.ProgramLinesAreTheirAccesses := by
  intro c
  refine ⟨fun p hp => ?_, fun reg hreg => ?_, fun text ops x => ?_, rfl, fun lines s t hs => hs ▸ loadProgram_eq_some_iff⟩
  · obtain ⟨r, hr, hoff⟩ := regNamed_of_mem_registerNames hp
    refine ⟨fun v => ?_, fun v hv => ?_, ?_⟩
    · simp only [assembleLine, hr, if_pos v.isLt, writeTo, hoff, BitVec.ofNat_toNat, BitVec.setWidth_eq]
    · simp only [assembleLine, hr, if_neg (Nat.not_lt.mpr hv)]
    · simp only [assembleLine, hr, Option.map_some, readFrom, hoff]
  · simp only [assembleLine, regNamed_eq_none hreg, Option.map_none, implies_true, and_self]
  · simp only [assembleLine, Option.map_eq_some_iff, eq_comm (a := x)]
    rfl

end Sys2Proof.AssemblerProofs
